-- ==== Sys2Proof/Word.lean ====
section
/-!
DEFINITION. The three bit-vector types of the block: the 16-bit accumulator pattern, the input byte and the
10-bit command word (spec 00_scope.md R5, R7; 30_encoding.md R38).
-/

namespace Sys2Proof

/-- A 16-bit pattern: the content of the accumulator, the checksum, the output (R5, R13, R15). -/
abbrev Acc := BitVec 16

/-- One input symbol, an unsigned byte (R5, R25). -/
abbrev Byte := BitVec 8

/-- A command word of exactly 10 bits (R38). -/
abbrev CmdWord := BitVec 10

end Sys2Proof
end

