-- ==== Sys2Proof/Syntax.lean ====
section
/-!
DEFINITION. Syntax: the three operations of the block (spec 30_encoding.md R37), the names of their rows, and the
source lines of the assembler notation with its pseudo-operations (R44, R45).
-/

namespace Sys2Proof

/-- The operation set, one constructor per row of the opcode table (R37). -/
inductive Instr where
  /-- `CRC.HOLD`: nothing; the accumulator keeps its value (R51). -/
  | hold
  /-- `CRC.BYTE d`: absorb the byte `d` (R52). -/
  | byte (d : Byte)
  /-- `CRC.INIT`: the accumulator becomes all ones (R53). -/
  | init
  deriving DecidableEq, Repr

/-- The name of a row of the opcode table, without its operand. -/
inductive Opcode where
  | hold
  | byte
  | init
  deriving DecidableEq, Repr

/-- The row an operation belongs to. -/
def Instr.opcode : Instr → Opcode
  | .hold => .hold
  | .byte _ => .byte
  | .init => .init

/-- The operation of a row with the given `data` field; only `CRC.BYTE` reads it (R38, R41). -/
def Opcode.withData : Opcode → Byte → Instr
  | .hold, _ => .hold
  | .byte, d => .byte d
  | .init, _ => .init

/-- One source line of the assembler notation: a real operation (R44) or a pseudo-operation (R45).
Operands are the numbers as written; whether each is a byte is checked by `Source.wellFormed`. -/
inductive Source where
  | hold
  | byte (n : Nat)
  | init
  /-- `CRC.NOP` -/
  | nop
  /-- `CRC.BYTES b0, b1, ...` -/
  | bytes (ns : List Nat)
  /-- `CRC.MSG b0, b1, ...` -/
  | msg (ns : List Nat)
  deriving DecidableEq, Repr

end Sys2Proof
end

