-- ==== Sys2Proof/Config.lean ====
section
/-!
DEFINITION. The constants the spec fixes (00_scope.md R5) and the one parameter it leaves open (R6, 92_eei_decisions.md D11).
-/

namespace Sys2Proof

/-- `INIT`, the value of the accumulator before the first byte (R5). -/
def Config.initAcc : Acc := 0xFFFF#16

/-- `POLY`, the constant XORed in after a shift when the bit shifted out was 1 (R5). -/
def Config.poly : Acc := 0xA001#16

/-- `N_ITER`, shift-XOR iterations per byte (R5). -/
def Config.iterationsPerByte : Nat := 8

/-- UNVERIFIED, safe (log entry 6): the free part of `CYCLES_PER_OP`. Nothing constrains it and no step reads it. -/
opaque Config.cyclesBeyondFirst : Opcode → Nat

/-- `CYCLES_PER_OP`: a positive integer, possibly different per operation, that no rule of the model reads (R97, D11). -/
def Config.cyclesPerOp (o : Opcode) : Nat := Config.cyclesBeyondFirst o + 1

end Sys2Proof
end

