-- ==== Sys2Proof/WellFormed.lean ====
section
/-!
DEFINITION. Well-formedness. Every `Instr` is well-formed: its operand is a byte by type and the block accepts every byte
(spec R41, R42, R74). What can be ill-formed is a number handed to the model from outside: an operand of the assembler
notation that is no byte (R44), and an integer that is no command word (R43).
-/

namespace Sys2Proof

/-- A number that a byte operand may hold: 0 to 255 (R44). -/
def byteOperandOk (n : Nat) : Bool := n < 256

/-- An integer that is a 10-bit command word (R43). -/
def commandIntegerOk (n : Nat) : Bool := n < 1024

/-- No operation has an illegal form (R42: "No command word is illegal and none is reserved"). -/
def Instr.wellFormed : Instr → Bool
  | .hold => true
  | .byte _ => true
  | .init => true

/-- A source line is well-formed when each of its operands is a byte (R44, R45). -/
def Source.wellFormed : Source → Bool
  | .hold => true
  | .byte n => byteOperandOk n
  | .init => true
  | .nop => true
  | .bytes ns => ns.all byteOperandOk
  | .msg ns => ns.all byteOperandOk

end Sys2Proof
end

