-- ==== Sys2Proof/Decode.lean ====
section
/-!
DEFINITION. The fields of a command word, the decoder (spec 30_encoding.md R38 to R40), the refusal of what is no command
word (R43), the opcode table as data (R40, R48), and the encoder (R42, R46).
-/

namespace Sys2Proof

/-! ## Fields (R38) -/

/-- `init = cmd[9]`. -/
def initField (cmd : CmdWord) : Bool := cmd.getLsbD 9

/-- `en = cmd[8]`. -/
def enField (cmd : CmdWord) : Bool := cmd.getLsbD 8

/-- `data = cmd[7:0]`. -/
def dataField (cmd : CmdWord) : Byte := cmd.extractLsb' 0 8

/-- The command word `{init, en, data}` of three port values (R38). -/
def packFields (init en : Bool) (data : Byte) : CmdWord :=
  (BitVec.ofBool init ++ BitVec.ofBool en ++ data).cast (rfl : 1 + 1 + 8 = 10)

/-! ## The decoder (R39) -/

/-- The decoder: total on all 1024 words, reading the two top bits only; `init` has priority over `en` (R39). -/
def decode (cmd : CmdWord) : Instr :=
  if initField cmd then .init
  else if enField cmd then .byte (dataField cmd)
  else .hold

/-! ## What is no command word (R43) -/

/-- Why something handed to the decoder is no command. -/
inductive DecodeError where
  /-- A bit vector of another width than 10 ("wider or narrower than 10 bits is not a command"). -/
  | notTenBits (width : Nat)
  /-- An integer with a bit above bit 9: refused, not truncated. -/
  | bitsAboveNine (value : Nat)
  deriving DecidableEq, Repr

/-- The command word an integer stands for; a wider integer is refused by name (R43). -/
def wordOfInteger (n : Nat) : Except DecodeError CmdWord :=
  if commandIntegerOk n then .ok (BitVec.ofNat 10 n) else .error (.bitsAboveNine n)

/-- The command word a bit vector of any width stands for; another width than 10 is refused by name (R43). -/
def wordOfVector (n : Nat) (v : BitVec n) : Except DecodeError CmdWord :=
  if h : n = 10 then .ok (v.cast h) else .error (.notTenBits n)

/-- The decoder handed an integer (R43). -/
def decodeInteger (n : Nat) : Except DecodeError Instr :=
  (wordOfInteger n).map decode

/-- A list of integers read as command words, in order; the first that is none refuses the list. -/
def wordsOfIntegers : List Nat → Except DecodeError (List CmdWord)
  | [] => .ok []
  | n :: ns =>
    match wordOfInteger n with
    | .error e => .error e
    | .ok w =>
      match wordsOfIntegers ns with
      | .error e => .error e
      | .ok ws => .ok (w :: ws)

/-- The width of a command word in bits (R38). -/
def commandBits : Nat := 10

/-- The width of a command word in whole bytes, as the opcode table's bits are handed over: 16. -/
def commandBitsInWholeBytes : Nat := (commandBits + 7) / 8 * 8

/-- The widths at which an instruction of the opcode table is read: its own, and the same in whole bytes.
DESIGN CHOICE, safe (log entry 5): the whole-byte form is the model's; the spec knows 10 bits only. -/
def tableWidthOk (nbits : Nat) : Bool := nbits == commandBits || nbits == commandBitsInWholeBytes

/-- The command word that an opcode-table instruction of `nbits` bits with the value `w` stands for. Another width than the
instruction's own, and a value with a bit above bit 9, padding included, are refused by name; nothing is truncated (R43). -/
def wordOfTableBits (nbits w : Nat) : Except DecodeError CmdWord :=
  if tableWidthOk nbits then wordOfInteger w else .error (.notTenBits nbits)

/-- The instruction the decoder reads from an instruction's bits numbered as the opcode table numbers them. -/
def decodeTableWord (nbits w : Nat) : Option Instr :=
  match wordOfTableBits nbits w with
  | .ok cmd => some (decode cmd)
  | .error _ => none

/-! ## The opcode table as data (R40, R48) -/

/-- A row of the opcode table: its mnemonic, mask and match. -/
structure TableRow where
  opcode : Opcode
  mnemonic : String
  mask : CmdWord
  pattern : CmdWord
  deriving DecidableEq, Repr

/-- The row of each operation (R40). -/
def Opcode.row : Opcode → TableRow
  | .hold => { opcode := .hold, mnemonic := "CRC.HOLD", mask := 0x300#10, pattern := 0x000#10 }
  | .byte => { opcode := .byte, mnemonic := "CRC.BYTE", mask := 0x300#10, pattern := 0x100#10 }
  | .init => { opcode := .init, mnemonic := "CRC.INIT", mask := 0x200#10, pattern := 0x200#10 }

/-- The three rows, in the table's order. -/
def opcodeTable : List TableRow := [Opcode.hold.row, Opcode.byte.row, Opcode.init.row]

/-- "a command word selects a row when `cmd AND mask == match`" (R40). -/
def TableRow.selects (r : TableRow) (cmd : CmdWord) : Bool := cmd &&& r.mask == r.pattern

/-- A decoder written from the table alone (R48): the first row the word selects, with the word's `data` field. -/
def decodeByTable (cmd : CmdWord) : Option Instr :=
  (opcodeTable.find? fun r => r.selects cmd).map fun r => r.opcode.withData (dataField cmd)

/-! ## The encoder (R46) -/

/-- The canonical word of an operation: every ignored bit is 0 (R42, R46). -/
def encode : Instr → CmdWord
  | .hold => packFields false false 0#8
  | .byte d => packFields false true d
  | .init => packFields true false 0#8

/-- The bits of a word that its operation reads; the others are ignored (R42). -/
def readMask : Opcode → CmdWord
  | .hold => 0x300#10
  | .byte => 0x3FF#10
  | .init => 0x200#10

/-- A word with its ignored bits cleared (R46). -/
def clearIgnored (cmd : CmdWord) : CmdWord := cmd &&& readMask (decode cmd).opcode

end Sys2Proof
end

