-- ==== Sys2Proof/Machine/Flags.lean ====
section
/-!
DEFINITION. The block has no flag (spec 10_state.md R17). The one condition it computes is the test of the accumulator's low
bit inside an iteration, which "reads `acc[0]` directly and leaves no flag behind".
-/

namespace Sys2Proof.Machine

/-- The condition of one iteration: `a[0] == 1` (R17, R49). -/
def lowBit (a : Acc) : Bool := a.getLsbD 0

end Sys2Proof.Machine
end

