-- ==== Sys2Proof/Machine/Operands.lean ====
section
/-!
DEFINITION. The operand forms: the zero extension of the input byte (spec 30_encoding.md R41, 00_scope.md R8) and the two
bytes of a 16-bit pattern (R7). There is no other operand form.
-/

namespace Sys2Proof.Machine

/-- `zext_16(d) = {0x00, d}` (R8, R41). -/
def zext16 (d : Byte) : Acc := d.setWidth 16

/-- `v[7:0]`, the low byte (R7). -/
def lowByte (v : Acc) : Byte := v.extractLsb' 0 8

/-- `v[15:8]`, the high byte (R7). -/
def highByte (v : Acc) : Byte := v.extractLsb' 8 8

/-- `{h, l}`: the 16-bit value with high byte `h` and low byte `l` (R7). -/
def joinBytes (h l : Byte) : Acc := (h ++ l).cast (rfl : 8 + 8 = 16)

end Sys2Proof.Machine
end

