-- ==== Sys2Proof/Machine/State.lean ====
section
/-!
DEFINITION. The state of the machine: the block's one register (spec 10_state.md R13, R22) and, beside it, the agent that
drives it, the host, with what it is going to present (70_reset_and_hazards.md R99).
-/

namespace Sys2Proof.Machine

/-- The block's whole architectural state: one 16-bit register (R13; R22: "a model's state type has one field"). -/
structure Block where
  acc : Acc
  deriving DecidableEq, Repr

/-- What the host drives on the block's inputs for one operation: the reset input (R89) and the command word (R38).
DEDUCED, safe (log entry 3): both can be present at once, and then reset wins (R77 (b)). -/
structure HostInput where
  reset : Bool
  cmd : CmdWord
  deriving DecidableEq, Repr

/-- The machine. `block` is the spec's state; `pending` is the model's own field.
DESIGN CHOICE, safe (log entry 1): the host's inputs yet to be presented, oldest first. The spec keeps a position in a
command list "in the host, not in the block" (R16), and the block can observe none of it but the word of the moment. -/
structure State where
  block : Block
  pending : List HostInput
  deriving DecidableEq, Repr

/-- The reasons a step can stop with a fault: none. "The block raises no exception" (R74, R78), so no constructor stands
here; nobody raises a fault, which is what the spec says and therefore safe. -/
inductive Fault where
  deriving DecidableEq, Repr

/-- The reasons a step can be refused. -/
inductive Refusal where
  /-- An instruction without a meaning yet. Raised by no arm of `exec`: all three operations have their meaning. Safe. -/
  | notModelled (mnemonic : String)
  deriving DecidableEq, Repr

/-- The machine right after hardware reset: `acc == 0xFFFF` (R21, R89, R90). The host has nothing pending: the model's own
field, empty (DESIGN CHOICE, log entry 1). -/
def State.reset : State :=
  { block := { acc := Config.initAcc }, pending := [] }

end Sys2Proof.Machine
end

