-- ==== Sys2Proof/Machine/Ops.lean ====
section
/-!
DEFINITION. The operations every meaning is built from: the two functions of the datapath (spec 40_accumulator_ops.md R49,
R50), the one way the accumulator is read, written and put out (10_state.md R14, R15), hardware reset (R89), and what the
host presents for a step. The block takes no exception and returns from none (R74, R78), so no such operation stands here.
-/

namespace Sys2Proof.Machine

/-! ## The datapath -/

/-- `a >> 1`: logical shift right by one place; bit 15 of the result is 0 (R8). -/
def shiftRightOne (a : Acc) : Acc := a >>> 1

/-- `step1`: one iteration. The low bit is tested before the shift, the XOR is applied after it (R49). -/
def step1 (a : Acc) : Acc :=
  if lowBit a then shiftRightOne a ^^^ Config.poly else shiftRightOne a

/-- `absorb`: one byte. One XOR into the low byte, then exactly 8 iterations (R50). -/
def absorb (a : Acc) (d : Byte) : Acc :=
  step1^[Config.iterationsPerByte] (a ^^^ zext16 d)

/-! ## The accumulator -/

/-- The read of `acc` (R14). -/
def State.acc (s : State) : Acc := s.block.acc

/-- The write of `acc`; nothing else changes (R14, R78). -/
def State.writeAcc (s : State) (v : Acc) : State := { s with block := { s.block with acc := v } }

/-- The output: `crc_out == acc`, bit for bit, a function of the state alone (R15). -/
def State.crcOut (s : State) : Acc := s.acc

/-! ## Hardware reset -/

/-- Hardware reset: `acc` becomes `0xFFFF` and nothing else is affected (R89). -/
def hardwareReset (s : State) : State := s.writeAcc Config.initAcc

/-! ## The host's inputs -/

/-- What the block's inputs carry when the host presents nothing: both strobes 0, the canonical `CRC.HOLD`.
DEDUCED, safe (log entry 2) from R37 ("the block is idle between the host's actions") and R51. -/
def idleInput : HostInput := { reset := false, cmd := encode .hold }

/-- The input of the next step: the oldest pending one, or the idle input. -/
def State.nextInput (s : State) : HostInput :=
  match s.pending with
  | [] => idleInput
  | inp :: _ => inp

/-- The state once the host has presented its oldest pending input. -/
def State.consumeInput (s : State) : State := { s with pending := s.pending.tail }

/-- The state in which `inp` is what the host presents next, before all that was pending. -/
def State.presentNext (s : State) (inp : HostInput) : State := { s with pending := inp :: s.pending }

/-- The input that presents the command word `w` with reset released. -/
def command (w : CmdWord) : HostInput := { reset := false, cmd := w }

/-- The state in which the host presents what was read as a command word. Where the reading was refused (R43) there is no
command, and the host presents nothing: DESIGN CHOICE, safe (log entry 4). -/
def State.presentRead (s : State) : Except DecodeError CmdWord → State
  | .ok w => s.presentNext (command w)
  | .error _ => s

/-- The state in which the host presents the command word an integer stands for (R43). -/
def State.presentInteger (s : State) (n : Nat) : State := s.presentRead (wordOfInteger n)

end Sys2Proof.Machine
end

