-- ==== Sys2Proof/Machine/Accumulator.lean ====
section
/-!
DEFINITION. The meanings of the three operations (spec 40_accumulator_ops.md R51 to R53). Each is atomic and always answers a
next state: no operation has a flag, an exception or a partial effect (R52, R74, R78).
-/

namespace Sys2Proof.Machine

/-- `CRC.HOLD`: no state change (R51). -/
def execHold (s : State) : Host.Outcome State Fault Refusal := .next s

/-- `CRC.BYTE d`: `acc <- absorb(acc, d)` (R52). -/
def execByte (d : Byte) (s : State) : Host.Outcome State Fault Refusal :=
  .next (s.writeAcc (absorb s.acc d))

/-- `CRC.INIT`: `acc <- 0xFFFF` (R53). -/
def execInit (s : State) : Host.Outcome State Fault Refusal :=
  .next (s.writeAcc Config.initAcc)

end Sys2Proof.Machine
end

