-- ==== Sys2Proof/Machine/Dispatch.lean ====
section
/-! DEFINITION. One arm per operation of the opcode table, each a direct call of its meaning (spec 30_encoding.md R37). -/

namespace Sys2Proof.Machine

def exec (i : Instr) (s : State) : Host.Outcome State Fault Refusal :=
  match i with
  | .hold => Sys2Proof.Machine.execHold s
  | .byte d => Sys2Proof.Machine.execByte d s
  | .init => Sys2Proof.Machine.execInit s

end Sys2Proof.Machine
end

