-- ==== Sys2Proof/Machine/Step.lean ====
section
/-!
DEFINITION. One step of the machine is one operation of the block (spec 00_scope.md R12): the host presents its next input,
reset beats the command (R77 (b), R89), and otherwise the decoded command is executed (R16, R39).
-/

namespace Sys2Proof.Machine

/-- One step. The command word is not latched: it is gone from the state once presented (R18). -/
def step (s : State) : Host.Outcome State Fault Refusal :=
  if s.nextInput.reset then .next (hardwareReset s.consumeInput)
  else exec (decode s.nextInput.cmd) s.consumeInput

/-- `s` with an opcode-table instruction as what the host presents next. DESIGN CHOICE, safe (log entry 4): a program comes
to the block from outside, word by word, as the host's inputs. -/
def State.withFetchWord (s : State) (nbits w : Nat) : State := s.presentRead (wordOfTableBits nbits w)

end Sys2Proof.Machine
end

