-- ==== Sys2Proof/Machine/Assembler.lean ====
section
/-!
DEFINITION. The assembler notation (spec 30_encoding.md R44 to R46): the expansion of source lines, the reading of one line
of text, and the canonical words they assemble to. Lines are lists of characters. DESIGN CHOICE, unsafe for claims about texts (log entry 7):
spaces and tabs around a mnemonic, an operand or a comma are dropped; a hexadecimal literal is `0x` and exactly two
digits, in either case; a decimal literal is one or more digits.
-/

namespace Sys2Proof.Machine

/-! ## Expansion (R45) -/

/-- The byte operand a number stands for, if it is one. -/
def byteOperand (n : Nat) : Option Byte := if byteOperandOk n then some (BitVec.ofNat 8 n) else none

/-- The byte operands of a list of numbers, if each is one. -/
def byteOperandList : List Nat → Option (List Byte)
  | [] => some []
  | n :: ns =>
    match byteOperand n, byteOperandList ns with
    | some b, some bs => some (b :: bs)
    | _, _ => none

/-- The `CRC.BYTE`s of a message, in order. -/
def bytesOps (bs : List Byte) : List Instr := bs.map Instr.byte

/-- The operations of `CRC.MSG`: `CRC.INIT`, then the bytes (R45). -/
def messageOps (bs : List Byte) : List Instr := Instr.init :: bytesOps bs

/-- The real operations a source line expands to, or `none` where an operand is no byte (R44, R45). -/
def expandSource : Source → Option (List Instr)
  | .hold => some [.hold]
  | .byte n => (byteOperand n).map fun d => [.byte d]
  | .init => some [.init]
  | .nop => some [.hold]
  | .bytes ns => (byteOperandList ns).map bytesOps
  | .msg ns => (byteOperandList ns).map messageOps

/-! ## Reading a line (R44) -/

/-- Why a line does not assemble. -/
inductive AsmError where
  | unknownMnemonic
  | operandCount
  | badOperand
  deriving DecidableEq, Repr

def isBlank (c : Char) : Bool := c == ' ' || c == '\t'

/-- A text without the blanks at its two ends. -/
def trimBlanks (cs : List Char) : List Char :=
  ((cs.dropWhile isBlank).reverse.dropWhile isBlank).reverse

/-- A line without its comment: a semicolon starts a comment to the end of the line. -/
def stripComment (line : List Char) : List Char := line.takeWhile fun c => c != ';'

/-- The value of a decimal digit. -/
def decDigit (c : Char) : Option Nat :=
  if '0' ≤ c ∧ c ≤ '9' then some (c.toNat - '0'.toNat) else none

/-- The value of a hexadecimal digit. -/
def hexDigit (c : Char) : Option Nat :=
  if 'A' ≤ c ∧ c ≤ 'F' then some (c.toNat - 'A'.toNat + 10)
  else if 'a' ≤ c ∧ c ≤ 'f' then some (c.toNat - 'a'.toNat + 10)
  else decDigit c

/-- The value of decimal digits read from the left, after `acc`. -/
def decDigits : Nat → List Char → Option Nat
  | acc, [] => some acc
  | acc, c :: cs =>
    match decDigit c with
    | some v => decDigits (acc * 10 + v) cs
    | none => none

/-- The number a literal stands for: `0x` and two hexadecimal digits, or decimal digits. -/
def literalValue (cs : List Char) : Option Nat :=
  match cs with
  | [] => none
  | ['0', 'x', h, l] =>
    match hexDigit h, hexDigit l with
    | some a, some b => some (a * 16 + b)
    | _, _ => none
  | cs => decDigits 0 cs

/-- A text cut at its commas. -/
def splitCommas : List Char → List (List Char)
  | [] => [[]]
  | c :: cs =>
    match splitCommas cs with
    | [] => [[c]]
    | piece :: more => if c == ',' then [] :: piece :: more else (c :: piece) :: more

/-- The numbers of a list of texts, if each is a literal. -/
def literalList : List (List Char) → Option (List Nat)
  | [] => some []
  | p :: ps =>
    match literalValue (trimBlanks p), literalList ps with
    | some n, some ns => some (n :: ns)
    | _, _ => none

/-- The operands written after a mnemonic; none where nothing is written. -/
def operandList (cs : List Char) : Option (List Nat) :=
  if trimBlanks cs = [] then some [] else literalList (splitCommas cs)

/-- A mnemonic and its operands as a source line. -/
def sourceOf (mnemonic : List Char) (ns : List Nat) : Except AsmError Source :=
  if mnemonic = "CRC.HOLD".toList then
    match ns with
    | [] => .ok .hold
    | _ => .error .operandCount
  else if mnemonic = "CRC.INIT".toList then
    match ns with
    | [] => .ok .init
    | _ => .error .operandCount
  else if mnemonic = "CRC.NOP".toList then
    match ns with
    | [] => .ok .nop
    | _ => .error .operandCount
  else if mnemonic = "CRC.BYTE".toList then
    match ns with
    | [n] => .ok (.byte n)
    | _ => .error .operandCount
  else if mnemonic = "CRC.BYTES".toList then .ok (.bytes ns)
  else if mnemonic = "CRC.MSG".toList then .ok (.msg ns)
  else .error .unknownMnemonic

/-- The source line a text stands for; `none` for a comment alone, which assembles to nothing (R44, R47). DESIGN CHOICE, unsafe
for claims about texts (log entry 7): an empty line, or one of blanks alone, is accepted too and assembles to nothing. -/
def parseLine (line : List Char) : Except AsmError (Option Source) :=
  let text := trimBlanks (stripComment line)
  if text = [] then .ok none
  else
    match operandList (text.dropWhile fun c => !isBlank c) with
    | none => .error .badOperand
    | some ns => (sourceOf (text.takeWhile fun c => !isBlank c) ns).map some

/-- The command words of one line (R46). -/
def assembleLine (line : List Char) : Except AsmError (List CmdWord) :=
  match parseLine line with
  | .error e => .error e
  | .ok none => .ok []
  | .ok (some src) =>
    match expandSource src with
    | some ops => .ok (ops.map encode)
    | none => .error .badOperand

/-- The command words of a text, line by line; the first line that does not assemble refuses the text. -/
def assemble : List (List Char) → Except AsmError (List CmdWord)
  | [] => .ok []
  | line :: lines =>
    match assembleLine line, assemble lines with
    | .ok ws, .ok more => .ok (ws ++ more)
    | .error e, _ => .error e
    | .ok _, .error e => .error e

/-! ## Writing an operation (R44) -/

/-- A hexadecimal digit, in capitals as the spec prints it. -/
def hexChar (n : Nat) : Char := if n < 10 then Char.ofNat ('0'.toNat + n) else Char.ofNat ('A'.toNat + n - 10)

/-- A byte as the spec writes it: `0x` and two digits. -/
def byteLiteral (d : Byte) : List Char := ['0', 'x', hexChar (d.toNat / 16), hexChar (d.toNat % 16)]

/-- One operation as a line of the notation. -/
def renderInstr : Instr → List Char
  | .hold => "CRC.HOLD".toList
  | .byte d => "CRC.BYTE ".toList ++ byteLiteral d
  | .init => "CRC.INIT".toList

end Sys2Proof.Machine
end

