-- ==== Sys2Proof/Machine/Message.lean ====
section
/-!
DEFINITION. The checksum of a message and how a sequence of operations reads as a message (spec 41_message_function.md R61,
R62, R66; 40_accumulator_ops.md R57).
-/

namespace Sys2Proof.Machine

/-- `crc16_from(a, m)`: the accumulator after absorbing the bytes of `m` in order, from `a` (R61). -/
def crc16From : Acc → List Byte → Acc
  | a, [] => a
  | a, b :: rest => crc16From (absorb a b) rest

/-- `crc16(m) = crc16_from(0xFFFF, m)`: no transformation after the last byte (R61). -/
def crc16 (m : List Byte) : Acc := crc16From Config.initAcc m

/-- `T(x) = absorb(0x0000, x)`, a function of one byte (R57). -/
def byteTerm (x : Byte) : Acc := absorb 0#16 x

/-- The operands of the `CRC.BYTE`s of a sequence, in order, everything else dropped (R62). -/
def byteOperands : List Instr → List Byte
  | [] => []
  | .byte d :: ops => d :: byteOperands ops
  | .hold :: ops => byteOperands ops
  | .init :: ops => byteOperands ops

/-! ## Readings of a pattern as a number (R66); informative, the block uses none of them -/

/-- The unsigned reading `u(p)`, from 0 to 65535. -/
def unsignedReading (p : Acc) : Nat := p.toNat

/-- The signed reading `s(p)`: `u(p)` when bit 15 is 0, `u(p) - 65536` when it is 1. -/
def signedReading (p : Acc) : Int :=
  if p.getLsbD 15 then (unsignedReading p : Int) - 65536 else unsignedReading p

end Sys2Proof.Machine
end

