-- ==== Sys2Proof/Machine/Frame.lean ====
section
/-!
DEFINITION. The use of the block's output that the spec puts in scope (00_scope.md R3 (d)): the 8-byte frame, which lives in
the host (20_memory.md R26 to R28), and the comparison the host makes (41_message_function.md R70, R72, R73; R79).
-/

namespace Sys2Proof.Machine

/-- The RawResponse frame, by byte index 0 to 7 (R26). -/
structure Frame where
  functionCode : Byte
  registerCount : Byte
  humidityHigh : Byte
  humidityLow : Byte
  temperatureHigh : Byte
  temperatureLow : Byte
  crcLow : Byte
  crcHigh : Byte
  deriving DecidableEq, Repr

/-- Bytes `f[0..6)`, those fed to the block, in increasing index order (R27). -/
def Frame.fed (f : Frame) : List Byte :=
  [f.functionCode, f.registerCount, f.humidityHigh, f.humidityLow, f.temperatureHigh, f.temperatureLow]

/-- All eight bytes in index order (R73). -/
def Frame.bytes (f : Frame) : List Byte := f.fed ++ [f.crcLow, f.crcHigh]

/-- The wire value `{f[7], f[6]}`: little-endian, byte 6 low, byte 7 high (R28; 90_conflicts.md C1). -/
def Frame.wire (f : Frame) : Acc := joinBytes f.crcHigh f.crcLow

/-- `valid`: the checksum of `f[0..6)` equals the wire value, all 16 bits (R70). -/
def Frame.valid (f : Frame) : Bool := crc16 f.fed == f.wire

/-- The host's error that depends on the block (R79). It is the host's verdict and no outcome of a step. -/
inductive HostError where
  | integrityFailure
  deriving DecidableEq, Repr

/-- The host's check of a frame against the value `c` it sampled from the block (R70, R79). -/
def Frame.check (f : Frame) (c : Acc) : Except HostError Unit :=
  if c = f.wire then .ok () else .error .integrityFailure

/-- The two checksum bytes as a sender appends them: low byte first, high byte second (R28). -/
def checksumBytes (c : Acc) : List Byte := [lowByte c, highByte c]

/-- The frame with six given bytes and the block's output over them in its checksum bytes (R28, R72). -/
def Frame.ofData (f : Frame) : Frame :=
  { f with crcLow := lowByte (crc16 f.fed), crcHigh := highByte (crc16 f.fed) }

end Sys2Proof.Machine
end

