-- ==== Sys2Proof/Machine/Reference.lean ====
section
/-!
DEFINITION. Two other designs the spec describes, to be proved equal to the block's datapath: the wired shift register with
three XOR taps (spec 40_accumulator_ops.md R55), and the source's software accumulator that may be wider than 16 bits, of unbounded width
or of a given one, and is truncated (10_state.md R13). No step of the machine uses them.
-/

namespace Sys2Proof.Machine

/-- Bit `i` of the wired form of one iteration, the table of R55: bit 15 takes `a[0]`, bit 13 `a[14] XOR a[0]`,
bit 0 `a[1] XOR a[0]`, and every other bit `i` takes `a[i+1]`. -/
def wiredBit (a : Acc) (i : Nat) : Bool :=
  match i with
  | 15 => a.getLsbD 0
  | 13 => (a.getLsbD 14).xor (a.getLsbD 0)
  | 0 => (a.getLsbD 1).xor (a.getLsbD 0)
  | i => a.getLsbD (i + 1)

/-- The shift register with three XOR taps: one clock of a bit-serial implementation (R55, R97). -/
def wiredStep (a : Acc) : Acc := BitVec.ofFnLE fun i : Fin 16 => wiredBit a i

/-- One iteration on an accumulator of unbounded width: the document's words read on a natural number (R13, R49). -/
def wideStep (n : Nat) : Nat := if n % 2 = 1 then (n / 2) ^^^ 0xA001 else n / 2

/-- One byte on an accumulator of unbounded width. -/
def wideAbsorb (n : Nat) (d : Byte) : Nat := wideStep^[8] (n ^^^ d.toNat)

/-- One iteration on an accumulator of `W` bits with the right shift given: the document says neither how wide the software's
accumulator is nor what its shift brings in at the top (R13; 92_eei_decisions.md D3). -/
def iterationOfWidth {W : Nat} (shift : BitVec W → BitVec W) (a : BitVec W) : BitVec W :=
  if a.getLsbD 0 then shift a ^^^ BitVec.ofNat W 0xA001 else shift a

/-- A message on an accumulator of `W` bits, from `a`. -/
def crcOfWidth {W : Nat} (shift : BitVec W → BitVec W) : BitVec W → List Byte → BitVec W
  | a, [] => a
  | a, b :: rest => crcOfWidth shift ((iterationOfWidth shift)^[8] (a ^^^ b.setWidth W)) rest

/-- A message on an accumulator of unbounded width, from `n`. -/
def wideCrcFrom : Nat → List Byte → Nat
  | n, [] => n
  | n, b :: rest => wideCrcFrom (wideAbsorb n b) rest

end Sys2Proof.Machine
end

