-- ==== Sys2Proof/Machine/Run.lean ====
section
/-!
DEFINITION. Runs and what is observed of them (spec 70_reset_and_hazards.md R99; 30_encoding.md R47): a run is a finite
sequence of host actions; its observation is `crc_out` at each sampling point and at its end.
-/

namespace Sys2Proof.Machine

/-- `n` steps, stopping where one does not answer a next state (no step does, R74). -/
def runSteps : Nat → State → Host.Outcome State Fault Refusal
  | 0, s => .next s
  | n + 1, s =>
    match step s with
    | .next t => runSteps n t
    | .fault r => .fault r
    | .refused r => .refused r

/-- One action of the host (R99): drive the inputs for one operation, or look at the output. Sampling is no operation
and no step (R47). -/
inductive HostAction where
  | present (inp : HostInput)
  | sample
  deriving DecidableEq, Repr

/-- The observation of a run of host actions from `s`: the values sampled, in order, and `crc_out` at the end (R99). -/
def observe : List HostAction → State → List Acc
  | [], s => [s.crcOut]
  | .sample :: rest, s => s.crcOut :: observe rest s
  | .present inp :: rest, s =>
    match step (s.presentNext inp) with
    | .next t => observe rest t
    | .fault _ => []
    | .refused _ => []

/-- What one input makes of the accumulator, by the spec's own equations: reset as R89 says, otherwise `exec(a, op)` of R62. -/
def inputEffect (a : Acc) (inp : HostInput) : Acc :=
  if inp.reset then Config.initAcc
  else
    match decode inp.cmd with
    | .hold => a
    | .byte d => absorb a d
    | .init => Config.initAcc

/-- The value the accumulator will have once everything the host has pending is presented (R62). -/
def State.destination (s : State) : Acc := s.pending.foldl inputEffect s.acc

/-- The commands of the pending inputs that carry `ops`, in order, reset released: the words an assembler emits (R46). -/
def commandsOf (ops : List Instr) : List HostInput := ops.map fun i => command (encode i)

end Sys2Proof.Machine
end

