-- ==== Sys2Proof/Safety.lean ====
section
/-!
DEFINITION. What counts as a step that runs, and as a conforming use of the block, in the terms the claims use
(spec 60_exceptions.md R74; 70_reset_and_hazards.md R91, R93, R96).
-/

namespace Sys2Proof.Machine

/-- The outcome is a next state: no fault and no refusal (R74). -/
def Completes (o : Host.Outcome State Fault Refusal) : Prop := ∃ t, o = .next t

/-- The inputs are a conforming presentation of the message `m`: reset stays released, and with the `CRC.HOLD`s dropped
they are one `CRC.INIT` and then the bytes of `m`, in order, each in exactly one `CRC.BYTE` (R91, R93, R96). -/
def Presents (m : List Byte) (inputs : List HostInput) : Prop :=
  (∀ inp ∈ inputs, inp.reset = false) ∧
  (inputs.map fun inp => decode inp.cmd).filter (fun i => i != .hold) = .init :: m.map Instr.byte

end Sys2Proof.Machine
end

