-- ==== Sys2Proof/Certificates/Slice0/Obligations.lean ====
section
/-!
DEFINITION. The statements for the provers. Each docstring names the rule of spec/ it formalises, or says that it rests on an
inference the spec marks as its own ("[derived: …]") or on a choice of the model (a log entry). Wherever a statement speaks of
what is pending, the queue is the model's own field, log entry 1; a step that finds it empty is log entry 2.
-/

open Sys2Proof Sys2Proof.Machine

/-! ## Reset and the step -/

/-- R89: hardware reset leaves `acc == 0xFFFF`, beats whatever command word is present, and affects nothing else. -/
def Obligations.HardwareResetSetsAllOnesAndBeatsTheCommand : Prop :=
  State.reset.acc = 0xFFFF#16 ∧
  ∀ (s : State) (w : CmdWord) (rest : List HostInput), s.pending = { reset := true, cmd := w } :: rest →
    step s = .next { block := { acc := 0xFFFF#16 }, pending := rest }

/-- R77: the two coincidences. (a) Both strobes set: `CRC.INIT`, and the byte is not absorbed. (b) Reset with any command:
the command is not executed. -/
def Obligations.InitBeatsEnableAndResetBeatsCommand : Prop :=
  ∀ (s : State) (d : Byte) (w : CmdWord) (rest : List HostInput),
    (s.pending = command (packFields true true d) :: rest →
      exec (decode (packFields true true d)) { s with pending := rest } = exec .init { s with pending := rest } ∧
      step s = .next { block := { acc := 0xFFFF#16 }, pending := rest }) ∧
    (s.pending = { reset := true, cmd := w } :: rest →
      step s = .next { block := { acc := 0xFFFF#16 }, pending := rest })

/-- After reset the output is the checksum of the empty message, and the block accepts any command at once (the spec's table
of the state after reset). That State.reset has nothing pending is the model's choice, log entry 1. -/
def Obligations.ResetStateShowsEmptyChecksumAndAcceptsCommands : Prop :=
  State.reset.crcOut = 0xFFFF#16 ∧ State.reset.crcOut = crc16 [] ∧ State.reset.pending = [] ∧
  ∀ w : CmdWord, step (State.reset.presentNext (command w)) = exec (decode w) State.reset

/-- A step executes the decoded command on the state whose oldest input is consumed (the queue is the model's, log entry 1),
and an opcode-table word placed by `withFetchWord` is what the next step executes (log entry 4). -/
def Obligations.StepExecutesTheDecodedCommand : Prop :=
  (∀ (s : State) (w : CmdWord) (rest : List HostInput), s.pending = command w :: rest →
    step s = exec (decode w) { s with pending := rest }) ∧
  (∀ (s : State) (nbits w : Nat) (i : Instr), decodeTableWord nbits w = some i →
    step (s.withFetchWord nbits w) = exec i s) ∧
  (∀ (s : State) (nbits w : Nat), decodeTableWord nbits w = none → s.withFetchWord nbits w = s)

/-- The model's choice, log entry 2: where the host presents nothing, a step is `CRC.HOLD` and leaves the state as it is. -/
def Obligations.IdleStepLeavesTheStateUnchanged : Prop :=
  ∀ s : State, s.pending = [] → step s = exec .hold s ∧ step s = .next s

/-- R74: the step function is total and returns a state; no operation and no command word makes it stop, nor does any number
of steps. -/
def Obligations.NoStepNoOperationAndNoRunEverStops : Prop :=
  (∀ s : State, Completes (step s)) ∧
  (∀ (i : Instr) (s : State), Completes (exec i s)) ∧
  (∀ (n : Nat) (s : State), Completes (runSteps n s))

/-! ## The three operations -/

/-- R51: `CRC.HOLD` changes nothing; all 256 words with both strobes 0 behave identically, and their `data` bits are neither
absorbed nor remembered. (That `CRC.HOLD`s may stand anywhere in a sequence, which the spec marks as an inference, is
HoldsMayBeInsertedOrLeftOutAnywhere.) -/
def Obligations.HoldLeavesEverythingUnchanged : Prop :=
  (∀ s : State, exec .hold s = .next s) ∧
  encode .hold = 0x000#10 ∧
  (∀ (s : State) (d : Byte) (rest : List HostInput), s.pending = command (packFields false false d) :: rest →
    decode (packFields false false d) = .hold ∧ step s = .next { s with pending := rest }) ∧
  (∀ s t : State, exec .hold s = .next t → t.crcOut = s.crcOut)

/-- R52: `CRC.BYTE d` makes `acc` the value `absorb(acc, d)` and changes nothing else, for every `d` and every `acc`; its
word is `0x100 + d`; and its corner cases: (a) a zero byte is no no-op, (d) the same byte twice is absorbed twice, (e) every
bit of `acc` and of `d` counts. Corner cases (b) and (c), which the spec marks as inferences, stand in
ZeroByteFixesExactlyTwoAccumulators and IterationIsLinearAndAbsorbHasByteForm. -/
def Obligations.ByteAbsorbsItsOperandIntoAcc : Prop :=
  (∀ (s : State) (d : Byte), exec (.byte d) s = .next { block := { acc := absorb s.acc d }, pending := s.pending }) ∧
  (∀ (s : State) (d : Byte) (rest : List HostInput), s.pending = command (0x100#10 + d.setWidth 10) :: rest →
    step s = .next { block := { acc := absorb s.acc d }, pending := rest }) ∧
  absorb 0xFFFF#16 0x00#8 = 0x40BF#16 ∧
  (∀ (s : State) (d : Byte) (rest : List HostInput),
    s.pending = command (encode (.byte d)) :: command (encode (.byte d)) :: rest →
    runSteps 2 s = .next { block := { acc := absorb (absorb s.acc d) d }, pending := rest }) ∧
  (∀ (a : Acc) (d : Byte) (i : Nat), i < 16 → absorb (a ^^^ (1#16 <<< i)) d ≠ absorb a d) ∧
  (∀ (a : Acc) (d : Byte) (i : Nat), i < 8 → absorb a (d ^^^ (1#8 <<< i)) ≠ absorb a d) ∧
  absorb 0xFFFF#16 0x03#8 = 0x41FF#16 ∧ absorb 0x41FF#16 0x04#8 = 0x8300#16

/-- R53: `CRC.INIT` makes `acc` `0xFFFF` whatever it was, on every word with bit 9 set whatever its other bits; twice is once;
in the middle of a message the bytes absorbed so far are discarded. -/
def Obligations.InitMakesAccAllOnes : Prop :=
  (∀ s : State, exec .init s = .next { block := { acc := 0xFFFF#16 }, pending := s.pending }) ∧
  encode .init = 0x200#10 ∧
  (∀ (s : State) (e : Bool) (d : Byte) (rest : List HostInput), s.pending = command (packFields true e d) :: rest →
    step s = .next { block := { acc := 0xFFFF#16 }, pending := rest }) ∧
  (∀ s s' : State, s.pending = s'.pending → exec .init s = exec .init s') ∧
  (∀ s t : State, exec .init s = .next t → exec .init t = .next t ∧ t.crcOut = 0xFFFF#16 ∧ t.crcOut = crc16 []) ∧
  (∀ (s : State) (m : List Byte) (rest : List HostInput),
    s.pending = commandsOf (m.map Instr.byte ++ [Instr.init]) ++ rest →
    runSteps (m.length + 1) s = .next { block := { acc := 0xFFFF#16 }, pending := rest })

/-- R14: `acc` is written by `CRC.INIT`, `CRC.BYTE` and reset and by nothing else; it is read by `CRC.BYTE` and by the output;
`CRC.HOLD` neither reads nor writes it; no operation loads a value into it but `0xFFFF`, and none clears it. -/
def Obligations.OnlyInitByteAndResetWriteAcc : Prop :=
  (∀ s : State, ∃ t, exec .init s = .next t ∧ t.acc = 0xFFFF#16) ∧
  (∀ (s : State) (d : Byte), ∃ t, exec (.byte d) s = .next t ∧ t.acc = absorb s.acc d) ∧
  (∀ s : State, s.nextInput.reset = true → ∃ t, step s = .next t ∧ t.acc = 0xFFFF#16) ∧
  (∀ s t : State, step s = .next t → t.acc ≠ s.acc →
    s.nextInput.reset = true ∨ decode s.nextInput.cmd = .init ∨ ∃ d, decode s.nextInput.cmd = .byte d) ∧
  (∀ d : Byte, ∃ s s' t t' : State, s.pending = s'.pending ∧
    exec (.byte d) s = .next t ∧ exec (.byte d) s' = .next t' ∧ t.acc ≠ t'.acc) ∧
  (∀ s : State, s.crcOut = s.acc) ∧
  (∀ s t : State, exec .hold s = .next t → t = s) ∧
  (∀ (i : Instr) (v : Acc), (∀ s : State, exec i s = .next (s.writeAcc v)) → i = .init ∧ v = 0xFFFF#16)

/-- The frame of all three operations (spec 60_exceptions.md section 4, "its whole effect is the one write to `acc`"): what
the host still has to present is untouched, so only `acc` can differ. That a step uses up the oldest pending input, where
there is one, and none where nothing is pending, is the model's: log entries 1 and 2. -/
def Obligations.OperationsChangeNothingButAcc : Prop :=
  (∀ (i : Instr) (s t : State), exec i s = .next t → t.pending = s.pending ∧ t = s.writeAcc t.acc) ∧
  (∀ s t : State, exec .hold s = .next t → t.acc = s.acc) ∧
  (∀ s t : State, step s = .next t → t.pending = s.pending.tail)

/-- R15: the output is `acc` bit for bit, a function of the state alone, and sampling it any number of times changes nothing
of what follows. -/
def Obligations.OutputIsAccAndSamplingHasNoEffect : Prop :=
  (∀ (s : State) (i : Nat), i < 16 → s.crcOut.getLsbD i = s.acc.getLsbD i) ∧
  (∀ s t : State, s.block = t.block → s.crcOut = t.crcOut) ∧
  (∀ (n : Nat) (s : State) (rest : List HostAction),
    observe (List.replicate n .sample ++ rest) s = List.replicate n s.crcOut ++ observe rest s)

/-! ## Decoding and encoding -/

/-- R39: the decoder is total and reads the two top bits only; `init` has priority over `en`. -/
def Obligations.DecoderReadsTheTwoTopBits : Prop :=
  ∀ w : CmdWord,
    (w.getLsbD 9 = true → decode w = .init) ∧
    (w.getLsbD 9 = false → w.getLsbD 8 = true → decode w = .byte (w.setWidth 8)) ∧
    (w.getLsbD 9 = false → w.getLsbD 8 = false → decode w = .hold)

/-- R40: the match, mask and word range of each of the three rows; the rows are disjoint and cover every word. -/
def Obligations.RowsMatchTheirMasksAndPartitionTheWords : Prop :=
  ∀ w : CmdWord,
    (w &&& 0x300#10 = 0x000#10 ↔ decode w = .hold) ∧
    (w &&& 0x300#10 = 0x100#10 ↔ decode w = .byte (w.setWidth 8)) ∧
    (w &&& 0x200#10 = 0x200#10 ↔ decode w = .init) ∧
    (decode w = .hold ↔ w.toNat ≤ 0x0FF) ∧
    (decode w = .byte (w.setWidth 8) ↔ 0x100 ≤ w.toNat ∧ w.toNat ≤ 0x1FF) ∧
    (decode w = .init ↔ 0x200 ≤ w.toNat ∧ w.toNat ≤ 0x3FF) ∧
    (opcodeTable.filter fun r => r.selects w).length = 1

/-- A decoder written from the opcode table alone is the decoder (spec 30_encoding.md section 5 on opcode_table.json). -/
def Obligations.DecoderFromTheTableAloneIsTheDecoder : Prop :=
  ∀ w : CmdWord, decodeByTable w = some (decode w)

/-- R42: no command word is illegal and none traps; the redundant words; the canonical words have every ignored bit 0. -/
def Obligations.EveryCommandWordDecodesAndRuns : Prop :=
  (∀ (s : State) (w : CmdWord) (rest : List HostInput), s.pending = command w :: rest → Completes (step s)) ∧
  (∀ w : CmdWord, w.toNat ≤ 0x0FF → decode w = .hold) ∧
  (∀ w : CmdWord, 0x200 ≤ w.toNat → decode w = .init) ∧
  (∀ d : Byte, decode (packFields true true d) = .init) ∧
  encode .hold = 0x000#10 ∧ encode .init = 0x200#10 ∧
  (∀ d : Byte, encode (.byte d) = 0x100#10 + d.setWidth 10) ∧
  (∀ i : Instr, clearIgnored (encode i) = encode i)

/-- R43: an integer with a bit above bit 9 and a vector of another width than 10 are refused by name, not truncated; a 10-bit
value is read as it stands. -/
def Obligations.WhatIsNoTenBitWordIsRefused : Prop :=
  (∀ n : Nat, 1024 ≤ n → decodeInteger n = .error (.bitsAboveNine n)) ∧
  (∀ n : Nat, n < 1024 → decodeInteger n = .ok (decode (BitVec.ofNat 10 n))) ∧
  (∀ (n : Nat) (v : BitVec n), n ≠ 10 → wordOfVector n v = .error (.notTenBits n)) ∧
  (∀ w : CmdWord, wordOfVector 10 w = .ok w)

/-- The model's choices, log entries 4 and 5: what R43 refuses is never presented to the block; and an opcode-table word is
read at its own 10 bits and at the same in two whole bytes, refused at every other width and with any bit above bit 9. -/
def Obligations.WhatIsRefusedIsNeverPresented : Prop :=
  (∀ (s : State) (n : Nat), 1024 ≤ n → s.presentInteger n = s) ∧
  (∀ (s : State) (nbits w : Nat), nbits ≠ 10 → nbits ≠ 16 →
    wordOfTableBits nbits w = .error (.notTenBits nbits) ∧ decodeTableWord nbits w = none ∧ s.withFetchWord nbits w = s) ∧
  (∀ (s : State) (nbits w : Nat), 1024 ≤ w → decodeTableWord nbits w = none ∧ s.withFetchWord nbits w = s) ∧
  (∀ (s : State) (nbits w : Nat), nbits = 10 ∨ nbits = 16 → w < 1024 →
    decodeTableWord nbits w = some (decode (BitVec.ofNat 10 w)) ∧
    s.withFetchWord nbits w = s.presentNext (command (BitVec.ofNat 10 w)))

/-- Words written out bit by bit from the spec's encoding decode to the operation they stand for. -/
def Obligations.SampleWordsDecodeAsWrittenOut : Prop :=
  decode 0b0000000000#10 = .hold ∧ decode 0b0011111111#10 = .hold ∧
  decode 0b0100000000#10 = .byte 0x00#8 ∧ decode 0b0100101100#10 = .byte 0x2C#8 ∧
  decode 0b0110000000#10 = .byte 0x80#8 ∧ decode 0b0111111111#10 = .byte 0xFF#8 ∧
  decode 0b1000000000#10 = .init ∧ decode 0b1011111111#10 = .init ∧
  decode 0b1100000000#10 = .init ∧ decode 0b1111111111#10 = .init

/-- Decode and encode agree on the whole instruction set (an inference the spec marks as its own in 30_encoding.md section 5:
"Decoding the canonical word gives the operation back"; the converse holds up to the ignored bits). The clause on
`decodeTableWord`, at 10 bits and in two whole bytes, rests on the model's log entry 5. -/
def Obligations.DecodeAndEncodeAgreeOnEveryOperation : Prop :=
  (∀ i : Instr, i.wellFormed = true → decode (encode i) = i) ∧
  (∀ w : CmdWord, encode (decode w) = clearIgnored w ∧ decode (clearIgnored w) = decode w) ∧
  (∀ (i : Instr) (nbits : Nat), nbits = 10 ∨ nbits = 16 → decodeTableWord nbits (encode i).toNat = some i) ∧
  (∀ v w : CmdWord, decode v = decode w ↔ clearIgnored v = clearIgnored w)

/-- R45: the three pseudo-operations and their expansions; after `CRC.MSG` the output is the checksum of its operands,
from every state. -/
def Obligations.PseudoOperationsExpandAndMsgComputesTheChecksum : Prop :=
  expandSource .nop = some [.hold] ∧
  (∀ bs : List Byte, expandSource (.bytes (bs.map BitVec.toNat)) = some (bs.map Instr.byte)) ∧
  (∀ bs : List Byte, expandSource (.msg (bs.map BitVec.toNat)) = some (Instr.init :: bs.map Instr.byte)) ∧
  expandSource (.bytes []) = some [] ∧ expandSource (.msg []) = some [.init] ∧
  (∀ (bs : List Byte) (ops : List Instr) (s : State) (rest : List HostInput),
    expandSource (.msg (bs.map BitVec.toNat)) = some ops → s.pending = commandsOf ops ++ rest →
    ∃ t, runSteps ops.length s = .next t ∧ t.pending = rest ∧ t.crcOut = crc16 bs)

/-- The assembler gives the canonical word of every operation written as the spec writes it, with or without a comment, and
nothing for a comment alone; a decimal operand gives the same word. How text is cut is the model's, log entry 7. -/
def Obligations.AssemblerGivesCanonicalWords : Prop :=
  (∀ i : Instr, assembleLine (renderInstr i) = .ok [encode i]) ∧
  (∀ (i : Instr) (comment : List Char), assembleLine (renderInstr i ++ ';' :: comment) = .ok [encode i]) ∧
  (∀ comment : List Char, assembleLine (';' :: comment) = .ok []) ∧
  (∀ d : Byte, assembleLine ("CRC.BYTE ".toList ++ Nat.toDigits 10 d.toNat) = .ok [encode (.byte d)])

/-! ## The datapath -/

/-- R49: one iteration tests the low bit before the logical shift and XORs `0xA001` after it. -/
def Obligations.IterationShiftsThenXorsWhenTheLowBitWasSet : Prop :=
  (∀ a : Acc, (a.getLsbD 0 = true → step1 a = (a >>> 1) ^^^ 0xA001#16) ∧
    (a.getLsbD 0 = false → step1 a = a >>> 1) ∧ (shiftRightOne a).getLsbD 15 = false) ∧
  step1 0x0000#16 = 0x0000#16 ∧ step1 0x0001#16 = 0xA001#16 ∧ step1 0x0002#16 = 0x0001#16 ∧
  step1 0x8000#16 = 0x4000#16 ∧ step1 0xFFFF#16 = 0xDFFE#16 ∧ step1 0xFFFE#16 = 0x7FFF#16 ∧
  step1 0xA001#16 = 0xF001#16 ∧ step1 0x4003#16 = 0x8000#16

/-- R50: one byte is one XOR into the low byte, then exactly eight iterations, whatever the values. -/
def Obligations.AbsorbIsOneXorThenEightIterations : Prop :=
  (∀ (a : Acc) (d : Byte), absorb a d =
    step1 (step1 (step1 (step1 (step1 (step1 (step1 (step1 (a ^^^ d.setWidth 16))))))))) ∧
  (∀ (a : Acc) (d : Byte), highByte (a ^^^ zext16 d) = highByte a ∧ lowByte (a ^^^ zext16 d) = lowByte a ^^^ d) ∧
  0xFFFF#16 ^^^ zext16 0x03#8 = 0xFFFC#16 ∧
  step1 0xFFFC#16 = 0x7FFE#16 ∧ step1 0x7FFE#16 = 0x3FFF#16 ∧ step1 0x3FFF#16 = 0xBFFE#16 ∧
  step1 0xBFFE#16 = 0x5FFF#16 ∧ step1 0x5FFF#16 = 0x8FFE#16 ∧ step1 0x8FFE#16 = 0x47FF#16 ∧
  step1 0x47FF#16 = 0x83FE#16 ∧ step1 0x83FE#16 = 0x41FF#16 ∧ absorb 0xFFFF#16 0x03#8 = 0x41FF#16

/-- The bit table of one iteration, an inference the spec marks as its own (40_accumulator_ops.md section 3, "`step1` bit by
bit"): the wired shift register with three XOR taps is the conditional form, and eight of its clocks absorb a byte. -/
def Obligations.WiredShiftRegisterEqualsTheIteration : Prop :=
  (∀ a : Acc,
    (step1 a).getLsbD 15 = a.getLsbD 0 ∧
    (step1 a).getLsbD 14 = a.getLsbD 15 ∧
    (step1 a).getLsbD 13 = (a.getLsbD 14 ^^ a.getLsbD 0) ∧
    (∀ i, 1 ≤ i → i ≤ 12 → (step1 a).getLsbD i = a.getLsbD (i + 1)) ∧
    (step1 a).getLsbD 0 = (a.getLsbD 1 ^^ a.getLsbD 0)) ∧
  (∀ a : Acc, wiredStep a = step1 a) ∧
  (∀ (a : Acc) (d : Byte), wiredStep^[8] (a ^^^ zext16 d) = absorb a d)

/-- An inference the spec marks as its own (40_accumulator_ops.md section 3, "`step1` is a bijection on 16-bit values"), with
its inverse: no accumulator loses information, and no two bytes absorb alike. -/
def Obligations.IterationAndAbsorbAreBijections : Prop :=
  Function.Bijective step1 ∧
  (∀ a n : Acc, step1 a = n ↔
    (a.getLsbD 0 = n.getLsbD 15 ∧
      ∀ i, i < 15 → a.getLsbD (i + 1) = (n ^^^ (if n.getLsbD 15 then 0xA001#16 else 0x0000#16)).getLsbD i)) ∧
  (∀ d : Byte, Function.Bijective fun a => absorb a d) ∧
  (∀ a : Acc, Function.Injective fun d => absorb a d)

/-- An inference of the spec (40_accumulator_ops.md section 3; 90_conflicts.md C4): absorbing a zero byte fixes exactly
`0x0000` and `0xC001`; the first is corner case (b) of `CRC.BYTE` (section 2), also an inference. -/
def Obligations.ZeroByteFixesExactlyTwoAccumulators : Prop :=
  absorb 0x0000#16 0x00#8 = 0x0000#16 ∧ absorb 0xC001#16 0x00#8 = 0xC001#16 ∧
  ∀ a : Acc, absorb a 0x00#8 = a ↔ a = 0x0000#16 ∨ a = 0xC001#16

/-- An inference of the spec (40_accumulator_ops.md section 3, "Linearity and the byte form"): iteration is linear over XOR,
and one byte absorbed is the high byte moved down, XORed with a function of one byte; so a byte equal to the low byte just moves
the high byte down (section 2, corner case (c) of `CRC.BYTE`). -/
def Obligations.IterationIsLinearAndAbsorbHasByteForm : Prop :=
  step1 0#16 = 0#16 ∧
  (∀ a b : Acc, step1 (a ^^^ b) = step1 a ^^^ step1 b) ∧
  (∀ a b : Acc, step1^[8] (a ^^^ b) = step1^[8] a ^^^ step1^[8] b) ∧
  (∀ (a : Acc) (d : Byte), absorb a d = step1^[8] a ^^^ step1^[8] (zext16 d)) ∧
  (∀ (a : Acc) (d : Byte), absorb a d = (a >>> 8) ^^^ byteTerm (lowByte a ^^^ d)) ∧
  (∀ h l : Byte, absorb (joinBytes h l) l = zext16 h) ∧
  byteTerm 0x00#8 = 0x0000#16 ∧ byteTerm 0x01#8 = 0xC0C1#16 ∧ byteTerm 0x80#8 = 0xA001#16 ∧ byteTerm 0xFF#8 = 0x4040#16

/-- An inference of the spec (40_accumulator_ops.md section 3): the high bytes of `T` are 256 different values, and zero only
for the zero byte. -/
def Obligations.HighBytesOfByteTermsAreAllDifferent : Prop :=
  (Function.Bijective fun x : Byte => highByte (byteTerm x)) ∧
  ∀ x : Byte, highByte (byteTerm x) = 0x00#8 ↔ x = 0x00#8

/-- An inference of the spec (10_state.md section 1): an accumulator of unbounded width that starts below 2^16 never sets a
bit above bit 15, and agrees with the 16-bit register on every message, so truncation changes nothing; and so on the
machine, whatever its state, for the words of `CRC.INIT` and a message (what stays pending: log entry 1). -/
def Obligations.WideSoftwareAccumulatorAgreesWithTheRegister : Prop :=
  (∀ (n : Nat) (d : Byte), n < 2 ^ 16 → wideAbsorb n d < 2 ^ 16) ∧
  (∀ (a : Acc) (m : List Byte), wideCrcFrom a.toNat m = (crc16From a m).toNat) ∧
  (∀ (s : State) (m : List Byte) (rest : List HostInput), s.pending = commandsOf (Instr.init :: m.map Instr.byte) ++ rest →
    ∃ t, runSteps (m.length + 1) s = .next t ∧ t.pending = rest ∧ t.acc.toNat = wideCrcFrom 0xFFFF m)

/-- An inference of the spec (10_state.md section 1), for every width: an accumulator of any width from 16 bits up, started
at a 16-bit value, holds the register's value below zeros on every message; and from 17 bits up this is so whatever the kind
of the right shift, logical or arithmetic, since its top bit is always 0 (92_eei_decisions.md D3, reason 2). -/
def Obligations.AccumulatorOfEveryWidthAgreesWithTheRegister : Prop :=
  (∀ (W : Nat) (a : Acc) (m : List Byte), 16 ≤ W →
    crcOfWidth (fun x : BitVec W => x >>> 1) (a.setWidth W) m = (crc16From a m).setWidth W) ∧
  (∀ (W : Nat) (a : Acc) (m : List Byte), 17 ≤ W →
    crcOfWidth (fun x : BitVec W => x.sshiftRight 1) (a.setWidth W) m = (crc16From a m).setWidth W)

/-! ## Messages and sequences of operations -/

/-- R61: `crc16_from` and `crc16` by their equations and as the document's loop, with nothing done after the last byte; the
worked example. -/
def Obligations.ChecksumIsTheDocumentsLoop : Prop :=
  (∀ a : Acc, crc16From a [] = a) ∧
  (∀ (a : Acc) (b : Byte) (rest : List Byte), crc16From a (b :: rest) = crc16From (absorb a b) rest) ∧
  (∀ m : List Byte, crc16 m = crc16From 0xFFFF#16 m) ∧
  (∀ m : List Byte, crc16 m = m.foldl (fun a b => step1^[8] (a ^^^ zext16 b)) 0xFFFF#16) ∧
  (List.range 6).map (fun k => crc16 ([0x03#8, 0x04#8, 0x02#8, 0x2C#8, 0x01#8, 0x05#8].take (k + 1))) =
    [0x41FF#16, 0x8300#16, 0xC102#16, 0x1C41#16, 0xF01D#16, 0x0AF0#16]

/-- An inference of the spec (41_message_function.md section 1, "What a command sequence leaves in `acc`"): from every
state, any sequence of command words leaves the checksum of the bytes after the last `CRC.INIT`, or, without one, the
continuation of the accumulator it started from; what was not yet presented stays pending (log entry 1). -/
def Obligations.AnyCommandSequenceLeavesTheChecksumSinceTheLastInit : Prop :=
  ∀ (s : State) (words : List CmdWord) (rest : List HostInput), s.pending = words.map command ++ rest →
    (∀ before after : List Instr, words.map decode = before ++ Instr.init :: after → Instr.init ∉ after →
      runSteps words.length s = .next { block := { acc := crc16 (byteOperands after) }, pending := rest }) ∧
    (Instr.init ∉ words.map decode →
      runSteps words.length s =
        .next { block := { acc := crc16From s.acc (byteOperands (words.map decode)) }, pending := rest })

/-- An inference of the spec (41_message_function.md section 1, "The standard use"): any conforming presentation of `m`, with
`CRC.HOLD`s anywhere and from any state, ends with the checksum of `m` on the output, and it stays there for as long as the
words presented are `CRC.HOLD`s. What stays pending is log entry 1. -/
def Obligations.ConformingUseYieldsTheChecksum : Prop :=
  ∀ (s : State) (m : List Byte) (inputs rest : List HostInput) (holds : List CmdWord),
    Presents m inputs → (∀ w ∈ holds, decode w = .hold) → s.pending = inputs ++ holds.map command ++ rest →
    ∃ t, runSteps inputs.length s = .next t ∧ t.crcOut = crc16 m ∧
      ∃ u, runSteps (inputs.length + holds.length) s = .next u ∧ u.crcOut = crc16 m ∧ u.pending = rest

/-- An inference of the spec (40_accumulator_ops.md section 2 on `CRC.HOLD`; 70_reset_and_hazards.md section 3): `CRC.HOLD`s
may be inserted and left out freely, whatever the rest of the sequence. The queue is log entry 1. -/
def Obligations.HoldsMayBeInsertedOrLeftOutAnywhere : Prop :=
  ∀ (s s' : State) (words words' : List CmdWord),
    s.acc = s'.acc → s.pending = words.map command → s'.pending = words'.map command →
    (words.map decode).filter (fun i => i != .hold) = (words'.map decode).filter (fun i => i != .hold) →
    ∃ t, runSteps words.length s = .next t ∧ runSteps words'.length s' = .next t

/-- An inference of the spec (41_message_function.md section 1, "Continuation"): the checksum may be computed in pieces, and
sampling after each byte shows the checksum of the bytes so far, without disturbing what follows. -/
def Obligations.SamplesDuringAMessageAreTheChecksumsOfItsPrefixes : Prop :=
  (∀ (a : Acc) (m n : List Byte), crc16From a (m ++ n) = crc16From (crc16From a m) n) ∧
  (∀ (s : State) (m : List Byte),
    observe (HostAction.present (command (encode .init)) ::
        m.flatMap (fun b => [HostAction.present (command (encode (.byte b))), HostAction.sample])) s =
      (List.range m.length).map (fun k => crc16 (m.take (k + 1))) ++ [crc16 m])

/-- An inference of the spec (70_reset_and_hazards.md section 2): without the `CRC.INIT` between two messages the second
result is the checksum of both together, and with it the result is the second message's own; nothing is reported. What
stays pending is log entry 1. -/
def Obligations.OmittedInitContinuesThePreviousMessage : Prop :=
  ∀ (s : State) (m n : List Byte) (rest : List HostInput),
    (s.pending = commandsOf (Instr.init :: m.map Instr.byte ++ n.map Instr.byte) ++ rest →
      runSteps (1 + m.length + n.length) s = .next { block := { acc := crc16 (m ++ n) }, pending := rest }) ∧
    (s.pending = commandsOf (Instr.init :: m.map Instr.byte ++ Instr.init :: n.map Instr.byte) ++ rest →
      runSteps (2 + m.length + n.length) s = .next { block := { acc := crc16 n }, pending := rest })

/-- No state survives a `CRC.INIT` or a reset (spec 10_state.md section 2, "no memory of previous messages"): two machines
given the same inputs agree completely after any number of steps that includes one of the two. The queue of inputs is log
entry 1, and steps beyond its end are log entry 2. -/
def Obligations.NothingBeforeAnInitInfluencesWhatFollows : Prop :=
  ∀ (s s' : State) (before : List HostInput) (inp : HostInput) (after : List HostInput) (n : Nat),
    s.pending = before ++ inp :: after → s'.pending = s.pending → before.length < n →
    (inp.reset = true ∨ decode inp.cmd = .init) →
    runSteps n s = runSteps n s'

/-- The ordering model (spec 20_memory.md section 5): `crc_out` after `n` operations reflects exactly the first `n` inputs,
whatever the host has in store. That they are used up from the model's queue one a step, in the order presented, is log
entry 1, and that a step beyond its end changes nothing is log entry 2. -/
def Obligations.OutputReflectsExactlyTheInputsPresentedSoFar : Prop :=
  ∀ (s s' : State) (n : Nat), s.acc = s'.acc → s.pending.take n = s'.pending.take n →
    ∃ t t', runSteps n s = .next t ∧ runSteps n s' = .next t' ∧ t.crcOut = t'.crcOut ∧
      t.pending = s.pending.drop n ∧ t'.pending = s'.pending.drop n

/-- The invariant of every step: the value the accumulator is bound for, by the spec's own equations over what is still
pending (resets included), is what it was before the step. The fold is the spec's inference in 41_message_function.md
section 1 (R62) with reset as R89 says; the queue is the model's, log entry 1, and the idle step is log entry 2. -/
def Obligations.StepKeepsTheValueTheRunIsBoundFor : Prop :=
  ∀ (v : Acc) (s t : State), s.destination = v → step s = .next t → t.destination = v

/-- The value the run is bound for is what it reaches: from every state, once everything pending is presented, resets
included, the accumulator holds it. The value is the fold the spec infers in 41_message_function.md section 1 ("What a command
sequence leaves in `acc`", R62) with reset as R89 says; the queue it is folded over is the model's, log entry 1. -/
def Obligations.RunReachesTheValueItIsBoundFor : Prop :=
  ∀ s : State, runSteps s.pending.length s = .next { block := { acc := s.destination }, pending := [] }

/-- At State.reset the run is bound for the checksum of the empty message, nothing being pending (log entry 1). -/
def Obligations.ResetIsBoundForTheEmptyChecksum : Prop :=
  State.reset.destination = 0xFFFF#16 ∧ State.reset.destination = crc16 []

/-- An inference of the spec (41_message_function.md section 2, "Sensitivity to every bit"): two messages of the same length
that differ in exactly one byte have different checksums, for every length and every message; so, for any conforming
presentations of the two, from any two states, the outputs differ. -/
def Obligations.OneChangedByteAlwaysChangesTheChecksum : Prop :=
  ∀ (pre post : List Byte) (b b' : Byte), b ≠ b' →
    crc16 (pre ++ b :: post) ≠ crc16 (pre ++ b' :: post) ∧
    ∀ (s s' : State) (inputs inputs' : List HostInput),
      Presents (pre ++ b :: post) inputs → Presents (pre ++ b' :: post) inputs' →
      s.pending = inputs → s'.pending = inputs' →
      ∃ t t', runSteps inputs.length s = .next t ∧ runSteps inputs'.length s' = .next t' ∧ t.crcOut ≠ t'.crcOut

/-- An inference of the spec (41_message_function.md section 2, "Sensitivity to order"): the checksum is injective on messages
of one byte and of two; on three it is not, so no more may be assumed. -/
def Obligations.ChecksumIsInjectiveUpToTwoBytesOnly : Prop :=
  (∀ a b : Byte, crc16 [a] = crc16 [b] → a = b) ∧
  (∀ a b c d : Byte, crc16 [a, b] = crc16 [c, d] → a = c ∧ b = d) ∧
  (∃ m n : List Byte, m.length = 3 ∧ n.length = 3 ∧ m ≠ n ∧ crc16 m = crc16 n) ∧
  crc16 [0x01#8, 0x02#8] = 0xE181#16 ∧ crc16 [0x02#8, 0x01#8] = 0x10C1#16

/-! ## The output as a number, and the frame check -/

/-- R66: the two readings of a pattern, their ranges, and that equality of patterns, of unsigned readings and of signed
readings is the same thing; a signed against an unsigned reading is not. -/
def Obligations.PatternAndReadingsAgreeOnEquality : Prop :=
  (∀ p : Acc, unsignedReading p = ∑ i ∈ Finset.range 16, (p.getLsbD i).toNat * 2 ^ i) ∧
  (∀ p : Acc, unsignedReading p ≤ 65535 ∧ -32768 ≤ signedReading p ∧ signedReading p ≤ 32767) ∧
  (∀ p : Acc, (p.getLsbD 15 = false → signedReading p = unsignedReading p) ∧
    (p.getLsbD 15 = true → signedReading p = (unsignedReading p : Int) - 65536)) ∧
  (∀ p q : Acc, (unsignedReading p = unsignedReading q ↔ signedReading p = signedReading q) ∧
    (signedReading p = signedReading q ↔ p = q)) ∧
  unsignedReading 0xA531#16 = 42289 ∧ signedReading 0xA531#16 = -23247 ∧
  unsignedReading 0x0AF0#16 = 2800 ∧ signedReading 0x0AF0#16 = 2800

/-- R70: the host's comparison. The checksum of bytes 0 to 5, sampled from the block after `CRC.MSG` from any state, is
compared with `{f[7], f[6]}`: valid exactly when the low byte equals byte 6 and the high byte equals byte 7; otherwise the
host's error is IntegrityFailure and the block signals nothing. -/
def Obligations.FrameIsAcceptedExactlyWhenChecksumEqualsWireValue : Prop :=
  ∀ (f : Frame) (s : State) (rest : List HostInput),
    s.pending = commandsOf (Instr.init :: [f.functionCode, f.registerCount, f.humidityHigh, f.humidityLow,
      f.temperatureHigh, f.temperatureLow].map Instr.byte) ++ rest →
    ∃ t, runSteps 7 s = .next t ∧ t.pending = rest ∧ t.crcOut = crc16 f.fed ∧
      (f.check t.crcOut = .ok () ↔ f.valid = true) ∧
      (f.check t.crcOut = .error .integrityFailure ↔ f.valid = false) ∧
      (f.valid = true ↔ lowByte t.crcOut = f.crcLow ∧ highByte t.crcOut = f.crcHigh) ∧
      f.wire.toNat = 256 * f.crcHigh.toNat + f.crcLow.toNat

/-- The round trip (41_message_function.md section 3; its consequences are inferences the spec marks as its own): a frame that
carries its own checksum is valid; with a checksum byte changed it is not; with one of bytes 0 to 5 changed it is not. -/
def Obligations.FrameRoundTripAcceptsAndRejects : Prop :=
  (∀ f : Frame, f.ofData.valid = true ∧ f.ofData.fed = f.fed ∧
    f.ofData.bytes = f.fed ++ checksumBytes (crc16 f.fed)) ∧
  (∀ f g : Frame, f.valid = true → g.fed = f.fed → (g.crcLow ≠ f.crcLow ∨ g.crcHigh ≠ f.crcHigh) → g.valid = false) ∧
  (∀ (f g : Frame) (pre post : List Byte) (b b' : Byte), f.valid = true → g.wire = f.wire →
    f.fed = pre ++ b :: post → g.fed = pre ++ b' :: post → b ≠ b' → g.valid = false) ∧
  (Frame.mk 0x03#8 0x04#8 0x02#8 0x2C#8 0x01#8 0x05#8 0xF0#8 0x0A#8).valid = true ∧
  (Frame.mk 0x03#8 0x04#8 0x02#8 0x2C#8 0x01#8 0x05#8 0x0A#8 0xF0#8).valid = false

/-- The residue (41_message_function.md section 3, an inference the spec marks as its own): a message followed by its
checksum, low byte first, leaves `0x0000`; and for a frame of eight bytes the zero residue is equivalent to validity. -/
def Obligations.ZeroResidueIsEquivalentToAValidFrame : Prop :=
  (∀ m : List Byte, crc16 (m ++ [lowByte (crc16 m), highByte (crc16 m)]) = 0x0000#16) ∧
  (∀ f : Frame, crc16 f.bytes = 0x0000#16 ↔ f.valid = true) ∧
  (∀ (f : Frame) (s : State) (rest : List HostInput),
    s.pending = commandsOf (Instr.init :: f.bytes.map Instr.byte) ++ rest →
    ∃ t, runSteps 9 s = .next t ∧ (t.crcOut = 0x0000#16 ↔ f.valid = true)) ∧
  crc16 [0x03#8, 0x04#8, 0x02#8, 0x2C#8, 0x01#8, 0x05#8, 0xF0#8, 0x0A#8] = 0x0000#16 ∧
  crc16 [0x03#8, 0x04#8, 0x02#8, 0x2C#8, 0x01#8, 0x05#8, 0x0A#8, 0xF0#8] = 0xE3C2#16
end

