-- ==== Sys2Proof/Laws/State.lean ====
section
/-!
SUPPORT. One lemma per field per update of the state, so that no later proof unfolds a record update.
-/

namespace Sys2Proof.Machine

@[simp] theorem State.acc_mk (a : Acc) (p : List HostInput) : (State.mk ⟨a⟩ p).acc = a := rfl

@[simp] theorem State.reset_acc : State.reset.acc = 0xFFFF#16 := rfl
@[simp] theorem State.reset_pending : State.reset.pending = [] := rfl

@[simp] theorem State.acc_writeAcc (s : State) (v : Acc) : (s.writeAcc v).acc = v := rfl
@[simp] theorem State.block_writeAcc (s : State) (v : Acc) : (s.writeAcc v).block = ⟨v⟩ := rfl
@[simp] theorem State.pending_writeAcc (s : State) (v : Acc) : (s.writeAcc v).pending = s.pending := rfl
@[simp] theorem State.writeAcc_acc (s : State) : s.writeAcc s.acc = s := rfl
@[simp] theorem State.writeAcc_writeAcc (s : State) (v w : Acc) : (s.writeAcc v).writeAcc w = s.writeAcc w := rfl

@[simp] theorem State.acc_consumeInput (s : State) : s.consumeInput.acc = s.acc := rfl
@[simp] theorem State.pending_consumeInput (s : State) : s.consumeInput.pending = s.pending.tail := rfl

@[simp] theorem State.acc_presentNext (s : State) (i : HostInput) : (s.presentNext i).acc = s.acc := rfl
@[simp] theorem State.pending_presentNext (s : State) (i : HostInput) :
    (s.presentNext i).pending = i :: s.pending := rfl
@[simp] theorem State.nextInput_presentNext (s : State) (i : HostInput) : (s.presentNext i).nextInput = i := rfl
@[simp] theorem State.consumeInput_presentNext (s : State) (i : HostInput) :
    (s.presentNext i).consumeInput = s := rfl

@[simp] theorem State.presentRead_ok (s : State) (w : CmdWord) : s.presentRead (.ok w) = s.presentNext (command w) := rfl
@[simp] theorem State.presentRead_error (s : State) (e : DecodeError) : s.presentRead (.error e) = s := rfl

@[simp] theorem acc_hardwareReset (s : State) : (hardwareReset s).acc = 0xFFFF#16 := rfl
@[simp] theorem pending_hardwareReset (s : State) : (hardwareReset s).pending = s.pending := rfl

@[simp] theorem reset_command (w : CmdWord) : (command w).reset = false := rfl
@[simp] theorem cmd_command (w : CmdWord) : (command w).cmd = w := rfl

end Sys2Proof.Machine
end

