-- ==== Sys2Proof/Laws/Ops.lean ====
section
/-!
SUPPORT. One lemma per shared operation that says once everything it can do; proofs cite these instead of unfolding.
-/

namespace Sys2Proof

/-! ## Fields of a command word -/

@[simp] theorem initField_packFields (i e : Bool) (d : Byte) : initField (packFields i e d) = i := by
  revert i e d; decide

@[simp] theorem enField_packFields (i e : Bool) (d : Byte) : enField (packFields i e d) = e := by
  revert i e d; decide

@[simp] theorem dataField_packFields (i e : Bool) (d : Byte) : dataField (packFields i e d) = d := by
  revert i e d; decide

theorem wordOfInteger_lt {n : Nat} (h : n < 1024) : wordOfInteger n = .ok (BitVec.ofNat 10 n) := by
  simp [wordOfInteger, commandIntegerOk, h]

theorem wordOfInteger_ge {n : Nat} (h : 1024 ≤ n) : wordOfInteger n = .error (.bitsAboveNine n) := by
  simp [wordOfInteger, commandIntegerOk, Nat.not_lt.mpr h]

theorem tableWidthOk_iff {nbits : Nat} : tableWidthOk nbits = true ↔ nbits = 10 ∨ nbits = 16 := by
  simp [tableWidthOk, commandBits, commandBitsInWholeBytes]

theorem wordOfTableBits_of_width {nbits : Nat} (h : nbits = 10 ∨ nbits = 16) (w : Nat) :
    wordOfTableBits nbits w = wordOfInteger w := by
  simp [wordOfTableBits, tableWidthOk_iff.mpr h]

theorem wordOfTableBits_of_other_width {nbits : Nat} (h : ¬ (nbits = 10 ∨ nbits = 16)) (w : Nat) :
    wordOfTableBits nbits w = .error (.notTenBits nbits) := by
  simp [wordOfTableBits, mt tableWidthOk_iff.mp h]

/-- `CYCLES_PER_OP` is positive, which is all the spec says of it (R97). -/
theorem Config.cyclesPerOp_pos (o : Opcode) : 0 < Config.cyclesPerOp o := Nat.succ_pos _

end Sys2Proof

namespace Sys2Proof.Machine

/-! ## The datapath -/

theorem step1_of_lowBit {a : Acc} (h : lowBit a = true) : step1 a = (a >>> 1) ^^^ 0xA001#16 := by
  simp [step1, h, shiftRightOne, Config.poly]

theorem step1_of_not_lowBit {a : Acc} (h : lowBit a = false) : step1 a = a >>> 1 := by
  simp [step1, h, shiftRightOne]

/-- Everything `absorb` does: one XOR, then `step1` eight times. -/
theorem absorb_eq_iterate (a : Acc) (d : Byte) : absorb a d = step1^[8] (a ^^^ zext16 d) := rfl

theorem getLsbD_zext16 (d : Byte) (i : Nat) : (zext16 d).getLsbD i = d.getLsbD i := by
  simp only [zext16, BitVec.getLsbD_setWidth]
  rcases Nat.lt_or_ge i 8 with h | h
  · simp [show i < 16 by omega]
  · simp [BitVec.getLsbD_of_ge d i h]

@[simp] theorem lowByte_joinBytes (h l : Byte) : lowByte (joinBytes h l) = l := by
  ext k hk
  simp only [lowByte, joinBytes, BitVec.getElem_extractLsb', BitVec.getLsbD_cast, BitVec.getLsbD_append]
  simp [hk]

@[simp] theorem highByte_joinBytes (h l : Byte) : highByte (joinBytes h l) = h := by
  ext k hk
  simp only [highByte, joinBytes, BitVec.getElem_extractLsb', BitVec.getLsbD_cast, BitVec.getLsbD_append]
  simp [hk]

@[simp] theorem joinBytes_highByte_lowByte (v : Acc) : joinBytes (highByte v) (lowByte v) = v := by
  ext k hk
  simp only [joinBytes, highByte, lowByte, BitVec.getElem_cast, BitVec.getElem_append]
  split
  · simp [BitVec.getLsbD_eq_getElem, hk]
  · simp only [BitVec.getElem_extractLsb']
    rw [show 8 + (k - 8) = k by omega, BitVec.getLsbD_eq_getElem hk]

/-! ## The host's inputs -/

theorem State.nextInput_cons {s : State} {i : HostInput} {rest : List HostInput} (h : s.pending = i :: rest) :
    s.nextInput = i := by simp [State.nextInput, h]

theorem State.nextInput_nil {s : State} (h : s.pending = []) : s.nextInput = idleInput := by
  simp [State.nextInput, h]

theorem State.consumeInput_cons {s : State} {i : HostInput} {rest : List HostInput} (h : s.pending = i :: rest) :
    s.consumeInput = { s with pending := rest } := by simp [State.consumeInput, h]

theorem State.consumeInput_nil {s : State} (h : s.pending = []) : s.consumeInput = s := by
  cases s; simp_all [State.consumeInput]

end Sys2Proof.Machine
end

