-- ==== Sys2Proof/Laws/PerInstr.lean ====
section
/-!
SUPPORT. The statements made instruction by instruction. `EncodesInRow`: the canonical word of an operation selects the
operation's own row of the opcode table (spec 30_encoding.md R40, R42).
-/

namespace Sys2Proof.Laws.EncodesInRow

/-- The canonical word of `i` matches the mask and match of its row. -/
def Statement (i : Instr) : Prop := encode i &&& i.opcode.row.mask = i.opcode.row.pattern

theorem hold : Statement .hold := by unfold Statement; decide

theorem byte (d : Byte) : Statement (.byte d) := by
  unfold Statement; revert d; decide

theorem init : Statement .init := by unfold Statement; decide

end Sys2Proof.Laws.EncodesInRow
end

