-- ==== Sys2Proof/Laws/Step.lean ====
section
/-!
SUPPORT. What one step can do, said once: the inversion lemma from which properties of all steps are derived, and the
unfolding of a run by one step.
-/

namespace Sys2Proof.Machine

/-- If an operation answers a next state, that state differs at most in the accumulator, which its rule gives. -/
theorem exec_cases {i : Instr} {s t : State} (h : exec i s = .next t) :
    (i = .hold ∧ t = s) ∨ (∃ d, i = .byte d ∧ t = s.writeAcc (absorb s.acc d)) ∨
      (i = .init ∧ t = s.writeAcc Config.initAcc) := by
  cases i with
  | hold => exact .inl ⟨rfl, by simpa [exec, execHold] using h.symm⟩
  | byte d => exact .inr (.inl ⟨d, rfl, by simpa [exec, execByte] using h.symm⟩)
  | init => exact .inr (.inr ⟨rfl, by simpa [exec, execInit] using h.symm⟩)

/-- A step either resets the block or executes the decoded command, on the state whose oldest input is consumed. -/
theorem step_cases {s t : State} (h : step s = .next t) :
    (s.nextInput.reset = true ∧ t = hardwareReset s.consumeInput) ∨
      (s.nextInput.reset = false ∧ exec (decode s.nextInput.cmd) s.consumeInput = .next t) := by
  unfold step at h
  split at h
  · next hr => exact .inl ⟨hr, by simpa using h.symm⟩
  · next hr => exact .inr ⟨by simpa using hr, h⟩

theorem runSteps_zero (s : State) : runSteps 0 s = .next s := rfl

theorem runSteps_succ {n : Nat} {s t : State} (h : step s = .next t) : runSteps (n + 1) s = runSteps n t := by
  simp [runSteps, h]

end Sys2Proof.Machine
end

