-- ==== Sys2Proof/Tests/Slice0.lean ====
section
/-!
SUPPORT. Tests, with expected values taken from spec/95_test_vectors.md and from the rules, never from the model; and for each
statement with hypotheses a concrete state and operands that meet them (its witness).
-/

/- The tests are checked one after another: side by side, their threads' stacks can pass the memory limit of the check. -/
set_option Elab.async false

namespace Sys2Proof.Tests

open Sys2Proof Sys2Proof.Machine

/-- A state with the given accumulator in which the host has the given words to present. -/
def stateOf (a : Acc) (words : List CmdWord) : State := { block := { acc := a }, pending := words.map command }

/-- The accumulator after an outcome, if there is a next state. -/
def accAfter (o : Host.Outcome State Fault Refusal) : Option Acc :=
  match o with
  | .next t => some t.acc
  | .fault _ => none
  | .refused _ => none

/-! ## Well-formedness: an ill-formed term for each check, refused -/

theorem test_byteOperandOk_refuses_256 : byteOperandOk 255 = true ∧ byteOperandOk 256 = false := by decide
theorem test_commandIntegerOk_refuses_1024 : commandIntegerOk 1023 = true ∧ commandIntegerOk 1024 = false := by decide
theorem test_wellFormed_refuses_byte_256 : (Source.byte 256).wellFormed = false ∧ expandSource (.byte 256) = none := by decide
theorem test_wellFormed_refuses_bytes_256 :
    (Source.bytes [0, 256]).wellFormed = false ∧ expandSource (.bytes [0, 256]) = none := by decide
theorem test_wellFormed_refuses_msg_256 :
    (Source.msg [256, 0]).wellFormed = false ∧ expandSource (.msg [256, 0]) = none := by decide

/-! ## Decoding: words written out from the encoding (R38 to R40; vector V4) -/

theorem test_decode_hold : decode 0b0011111111#10 = .hold := by decide
theorem test_decode_byte : decode 0b0100101100#10 = .byte 0x2C#8 := by decide
theorem test_decode_init : decode 0b1000000000#10 = .init := by decide
theorem test_decode_both_strobes : decode 0b1110101011#10 = .init := by decide
theorem test_encode_byte : encode (.byte 0xFF#8) = 0x1FF#10 := by decide
theorem test_decodeTableWord : decodeTableWord 16 0x12C = some (.byte 0x2C#8) := by decide
theorem test_decodeTableWord_ten_bits : decodeTableWord 10 0x12C = some (.byte 0x2C#8) := by decide
theorem test_decodeTableWord_refuses_bit_10 : decodeTableWord 16 0x400 = none := by decide
/-- R43: refused rather than truncated to `CRC.BYTE 0x2C`; and a narrower word is no command. -/
theorem test_decodeTableWord_does_not_truncate : decodeTableWord 10 0x52C = none ∧ decodeTableWord 9 0x02C = none := by decide
theorem test_withFetchWord_presents_no_refused_word :
    State.reset.withFetchWord 10 0x52C = State.reset ∧ State.reset.withFetchWord 9 0x02C = State.reset := by decide
theorem test_wordOfVector_refuses_nine_bits : (wordOfVector 9 0x12C#9).toOption = none := by decide
theorem test_wordsOfIntegers_refuses_wide : (wordsOfIntegers [0x200, 0x12C, 0x52C]).toOption = none := by decide

/-! ## One step of each operation (vectors V2, V3) -/

theorem test_hold_ignores_data : accAfter (step (stateOf 0x41FF#16 [0x003#10])) = some 0x41FF#16 := by decide
theorem test_byte_03 : accAfter (step (stateOf 0xFFFF#16 [0x103#10])) = some 0x41FF#16 := by decide
theorem test_byte_equal_to_low_byte : accAfter (step (stateOf 0xABCD#16 [0x1CD#10])) = some 0x00AB#16 := by decide
theorem test_init_drops_its_data : accAfter (step (stateOf 0x1234#16 [0x3AB#10])) = some 0xFFFF#16 := by decide
theorem test_init_canonical : accAfter (step (stateOf 0x0AF0#16 [0x200#10])) = some 0xFFFF#16 := by decide
/-- R77 (b): the byte under the reset is not absorbed (it would give `0x00AB`). -/
theorem test_reset_beats_byte :
    accAfter (step { block := { acc := 0xABCD#16 }, pending := [{ reset := true, cmd := 0x1CD#10 }] }) = some 0xFFFF#16 := by
  decide
theorem test_first_word_after_reset : accAfter (step (State.reset.withFetchWord 16 0x131)) = some 0x947E#16 := by decide

/-! ## The datapath and messages (vectors V1, V6, V8, V12) -/

theorem test_step1_is_a_logical_shift : step1 0x8000#16 = 0x4000#16 := by decide
theorem test_wiredStep : wiredStep 0x7FFF#16 = 0x9FFE#16 := by decide
theorem test_wideAbsorb : wideAbsorb 0x40BF 0x00#8 = 0xB001 := by decide
theorem test_crc16_nine_digits :
    crc16 [0x31#8, 0x32#8, 0x33#8, 0x34#8, 0x35#8, 0x36#8, 0x37#8, 0x38#8, 0x39#8] = 0x4B37#16 := by decide +kernel
theorem test_signedReading : signedReading 0xA531#16 = -23247 := by decide
/-- V12: a frame whose checksum has bit 15 set is valid; V14: one bit changed, it is not. -/
theorem test_frame_valid : (Frame.mk 0x03#8 0x04#8 0x01#8 0xF4#8 0x00#8 0xFA#8 0x31#8 0xA5#8).valid = true := by decide +kernel
theorem test_frame_corrupted : (Frame.mk 0x03#8 0x04#8 0x02#8 0x2D#8 0x01#8 0x05#8 0xF0#8 0x0A#8).valid = false := by
  decide +kernel
/-- P3, first message, sampled in the middle and twice at its end (the end of the run is the third look). -/
theorem test_observe :
    observe [.present (command 0x200#10), .present (command 0x101#10), .sample, .present (command 0x102#10), .sample]
      (stateOf 0x1234#16 []) = [0x807E#16, 0xE181#16, 0xE181#16] := by decide

/-! ## The assembler notation (R44, R45) -/

theorem test_assemble_msg : (assembleLine "CRC.MSG 0x03, 4 ; two bytes".toList).toOption = some [0x200#10, 0x103#10, 0x104#10] := by
  decide +kernel
/-- Log entry 7: the empty line. -/
theorem test_assemble_empty_line : (assembleLine []).toOption = some [] := by decide
theorem test_assemble_sample_comment : (assembleLine "; sample -> c".toList).toOption = some [] := by decide
theorem test_assemble_refuses_256 : (assembleLine "CRC.BYTE 256".toList).toOption = none := by decide
theorem test_assemble_refuses_operand : (assembleLine "CRC.HOLD 0x00".toList).toOption = none := by decide
theorem test_assemble_refuses_lower_case : (assembleLine "crc.init".toList).toOption = none := by decide

/-! ## Witnesses: each statement's hypotheses are met, at the ends of their ranges -/

theorem witness_HardwareReset : ∃ (s : State) (w : CmdWord) (rest : List HostInput),
    s.pending = { reset := true, cmd := w } :: rest :=
  ⟨⟨⟨0x1234#16⟩, [⟨true, 0x1FF#10⟩]⟩, 0x1FF#10, [], rfl⟩

theorem witness_InitBeatsEnable_both_strobes : ∃ (s : State) (d : Byte) (rest : List HostInput),
    s.pending = command (packFields true true d) :: rest :=
  ⟨stateOf 0x1234#16 [packFields true true 0xAB#8, 0x103#10], 0xAB#8, [command 0x103#10], rfl⟩

theorem witness_StepExecutes_pending : ∃ (s : State) (w : CmdWord) (rest : List HostInput), s.pending = command w :: rest :=
  ⟨stateOf 0#16 [0x3FF#10], 0x3FF#10, [], rfl⟩
theorem witness_StepExecutes_decodes : ∃ (nbits w : Nat) (i : Instr), decodeTableWord nbits w = some i :=
  ⟨16, 1023, .init, by decide⟩
theorem witness_StepExecutes_refuses : ∃ nbits w : Nat, decodeTableWord nbits w = none := ⟨16, 1024, by decide⟩

theorem witness_IdleStep : State.reset.pending = [] := rfl

theorem witness_Hold : ∃ (s t : State) (d : Byte) (rest : List HostInput),
    s.pending = command (packFields false false d) :: rest ∧ exec .hold s = .next t :=
  ⟨stateOf 0x41FF#16 [packFields false false 0xFF#8], _, 0xFF#8, [], rfl, rfl⟩

theorem witness_Byte_word : ∃ (s : State) (d : Byte) (rest : List HostInput),
    s.pending = command (0x100#10 + d.setWidth 10) :: rest :=
  ⟨stateOf 0xFFFF#16 [0x100#10 + (0xFF#8).setWidth 10], 0xFF#8, [], rfl⟩
theorem witness_Byte_twice : ∃ (s : State) (d : Byte) (rest : List HostInput),
    s.pending = command (encode (.byte d)) :: command (encode (.byte d)) :: rest :=
  ⟨stateOf 0xFFFF#16 [encode (.byte 0#8), encode (.byte 0#8)], 0#8, [], rfl⟩
theorem witness_Byte_bits : (15 : Nat) < 16 ∧ (7 : Nat) < 8 := by decide

theorem witness_Init_word : ∃ (s : State) (e : Bool) (d : Byte) (rest : List HostInput),
    s.pending = command (packFields true e d) :: rest :=
  ⟨stateOf 0x1234#16 [packFields true true 0xFF#8], true, 0xFF#8, [], rfl⟩
theorem witness_Init_states : ∃ s s' t : State, s ≠ s' ∧ s.pending = s'.pending ∧ exec .init s = .next t :=
  ⟨stateOf 0x0AF0#16 [], stateOf 0#16 [], _, by decide, rfl, rfl⟩
theorem witness_Init_mid_message : ∃ (s : State) (m : List Byte) (rest : List HostInput),
    m ≠ [] ∧ s.pending = commandsOf (m.map Instr.byte ++ [Instr.init]) ++ rest :=
  ⟨stateOf 0#16 [0x103#10, 0x200#10, 0x000#10], [0x03#8], [command 0x000#10], by decide, by decide⟩

theorem witness_OnlyInit_reset : ∃ s t : State, step s = .next t ∧ t.acc ≠ s.acc ∧ s.nextInput.reset = true :=
  ⟨⟨⟨0#16⟩, [⟨true, 0#10⟩]⟩, _, rfl, by decide, rfl⟩
theorem witness_OnlyInit_init : ∃ s t : State, step s = .next t ∧ t.acc ≠ s.acc ∧ decode s.nextInput.cmd = .init :=
  ⟨stateOf 0#16 [0x200#10], _, rfl, by decide, by decide⟩
theorem witness_OnlyInit_byte : ∃ s t : State, step s = .next t ∧ t.acc ≠ s.acc ∧ decode s.nextInput.cmd = .byte 0xFF#8 :=
  ⟨stateOf 0#16 [0x1FF#10], _, rfl, by decide, by decide⟩
theorem witness_OnlyInit_nextInput : ∃ s : State, s.nextInput.reset = true := ⟨⟨⟨0#16⟩, [⟨true, 0x1FF#10⟩]⟩, rfl⟩
theorem witness_OnlyInit_hold : ∃ s t : State, exec .hold s = .next t := ⟨State.reset, _, rfl⟩
theorem witness_OnlyInit_loads : ∃ (i : Instr) (v : Acc), ∀ s : State, exec i s = .next (s.writeAcc v) :=
  ⟨.init, 0xFFFF#16, fun _ => rfl⟩

theorem witness_OperationsChangeNothingButAcc : ∃ (i : Instr) (s t : State), exec i s = .next t ∧ s.pending ≠ [] :=
  ⟨.byte 0x03#8, stateOf 0xFFFF#16 [0x104#10], _, rfl, by decide⟩
theorem witness_StepUsesOneInput : ∃ s t : State, step s = .next t ∧ s.pending ≠ [] :=
  ⟨stateOf 0xFFFF#16 [0x103#10, 0x104#10], _, rfl, by decide⟩

theorem witness_Output : ∃ s t : State, s ≠ t ∧ s.block = t.block := ⟨stateOf 0#16 [], stateOf 0#16 [0#10], by decide, rfl⟩
theorem witness_Output_bit : (15 : Nat) < 16 := by decide

theorem witness_Decoder_init : (0x3FF#10).getLsbD 9 = true := by decide
theorem witness_Decoder_byte : (0x1FF#10).getLsbD 9 = false ∧ (0x1FF#10).getLsbD 8 = true := by decide
theorem witness_Decoder_hold : (0x0FF#10).getLsbD 9 = false ∧ (0x0FF#10).getLsbD 8 = false := by decide

theorem witness_EveryCommandWord_ranges : (0x0FF#10).toNat ≤ 0x0FF ∧ 0x200 ≤ (0x200#10).toNat := by decide
theorem witness_EveryCommandWord_pending : ∃ (s : State) (w : CmdWord) (rest : List HostInput), s.pending = command w :: rest :=
  ⟨stateOf 0#16 [0x3FF#10], 0x3FF#10, [], rfl⟩

theorem witness_NoTenBitWord : 1024 ≤ (1024 : Nat) ∧ (1023 : Nat) < 1024 ∧ (9 : Nat) ≠ 10 ∧ (11 : Nat) ≠ 10 := by decide

theorem witness_RefusedIsNeverPresented :
    1024 ≤ (1024 : Nat) ∧ ((9 : Nat) ≠ 10 ∧ (9 : Nat) ≠ 16) ∧ ((17 : Nat) ≠ 10 ∧ (17 : Nat) ≠ 16) ∧
      ((16 : Nat) = 10 ∨ (16 : Nat) = 16) ∧ (1023 : Nat) < 1024 := by decide

theorem witness_DecodeEncode : (Instr.byte 0xFF#8).wellFormed = true ∧ ((10 : Nat) = 10 ∨ (10 : Nat) = 16) := by decide

theorem witness_Msg : ∃ (bs : List Byte) (ops : List Instr) (s : State) (rest : List HostInput),
    expandSource (.msg (bs.map BitVec.toNat)) = some ops ∧ s.pending = commandsOf ops ++ rest :=
  ⟨[0xFF#8], [.init, .byte 0xFF#8], stateOf 0#16 [0x200#10, 0x1FF#10, 0x000#10], [command 0x000#10], by decide, by decide⟩

theorem witness_Iteration : (0x0001#16).getLsbD 0 = true ∧ (0x8000#16).getLsbD 0 = false := by decide
theorem witness_Wired_range : 1 ≤ (1 : Nat) ∧ (1 : Nat) ≤ 12 ∧ 1 ≤ (12 : Nat) ∧ (12 : Nat) ≤ 12 ∧ (14 : Nat) < 15 := by decide

theorem witness_Wide : (65535 : Nat) < 2 ^ 16 := by decide
theorem witness_EveryWidth : 16 ≤ (16 : Nat) ∧ 17 ≤ (17 : Nat) := by decide
theorem witness_Wide_message : ∃ (s : State) (m : List Byte) (rest : List HostInput),
    s.pending = commandsOf (Instr.init :: m.map Instr.byte) ++ rest :=
  ⟨stateOf 0x1234#16 [0x200#10, 0x103#10], [0x03#8], [], by decide⟩

theorem witness_AnySequence_with_init : ∃ (s : State) (words : List CmdWord) (rest : List HostInput) (before after : List Instr),
    s.pending = words.map command ++ rest ∧ words.map decode = before ++ Instr.init :: after ∧ Instr.init ∉ after :=
  ⟨stateOf 0#16 [0x101#10, 0x3FF#10, 0x0A7#10, 0x103#10], [0x101#10, 0x3FF#10, 0x0A7#10, 0x103#10], [], [.byte 0x01#8],
    [.hold, .byte 0x03#8], by decide, by decide, by decide⟩
theorem witness_AnySequence_without_init : ∃ (s : State) (words : List CmdWord) (rest : List HostInput),
    s.pending = words.map command ++ rest ∧ Instr.init ∉ words.map decode :=
  ⟨stateOf 0#16 [0x131#10, 0x0FF#10], [0x131#10, 0x0FF#10], [], by decide, by decide⟩

theorem witness_ConformingUse : ∃ (s : State) (m : List Byte) (inputs rest : List HostInput) (holds : List CmdWord),
    Presents m inputs ∧ (∀ w ∈ holds, decode w = .hold) ∧ holds ≠ [] ∧
      s.pending = inputs ++ holds.map command ++ rest :=
  ⟨stateOf 0x1234#16 [0x000#10, 0x2AB#10, 0x103#10, 0x0A7#10, 0x104#10, 0x0FF#10, 0x200#10], [0x03#8, 0x04#8],
    [0x000#10, 0x2AB#10, 0x103#10, 0x0A7#10, 0x104#10].map command, [command 0x200#10], [0x0FF#10],
    ⟨by decide, by decide⟩, by decide, by decide, by decide⟩

theorem witness_Holds : ∃ (s s' : State) (words words' : List CmdWord),
    words ≠ words' ∧ s.acc = s'.acc ∧ s.pending = words.map command ∧ s'.pending = words'.map command ∧
      (words.map decode).filter (fun i => i != .hold) = (words'.map decode).filter (fun i => i != .hold) :=
  ⟨stateOf 0#16 [0x103#10, 0x0A7#10], stateOf 0#16 [0x103#10], [0x103#10, 0x0A7#10], [0x103#10],
    by decide, rfl, rfl, rfl, by decide⟩

theorem witness_OmittedInit : ∃ (s s' : State) (m n : List Byte) (rest : List HostInput),
    s.pending = commandsOf (Instr.init :: m.map Instr.byte ++ n.map Instr.byte) ++ rest ∧
      s'.pending = commandsOf (Instr.init :: m.map Instr.byte ++ Instr.init :: n.map Instr.byte) ++ rest :=
  ⟨stateOf 0#16 [0x200#10, 0x101#10, 0x102#10], stateOf 0#16 [0x200#10, 0x101#10, 0x200#10, 0x102#10], [0x01#8], [0x02#8], [],
    by decide, by decide⟩

theorem witness_NothingBefore_init : ∃ (s s' : State) (before : List HostInput) (inp : HostInput) (after : List HostInput) (n : Nat),
    s ≠ s' ∧ s.pending = before ++ inp :: after ∧ s'.pending = s.pending ∧ before.length < n ∧ decode inp.cmd = .init :=
  ⟨stateOf 0#16 [0x103#10, 0x200#10], stateOf 1#16 [0x103#10, 0x200#10], [command 0x103#10], command 0x200#10, [], 2,
    by decide, rfl, rfl, by decide, by decide⟩
theorem witness_NothingBefore_reset : ∃ (s s' : State) (before : List HostInput) (inp : HostInput) (after : List HostInput) (n : Nat),
    s ≠ s' ∧ s.pending = before ++ inp :: after ∧ s'.pending = s.pending ∧ before.length < n ∧ inp.reset = true :=
  ⟨⟨⟨0#16⟩, [⟨true, 0x103#10⟩]⟩, ⟨⟨1#16⟩, [⟨true, 0x103#10⟩]⟩, [], ⟨true, 0x103#10⟩, [], 1, by decide, rfl, rfl, by decide, rfl⟩

theorem witness_OutputReflects : ∃ (s s' : State) (n : Nat), s ≠ s' ∧ s.acc = s'.acc ∧ s.pending.take n = s'.pending.take n :=
  ⟨stateOf 0#16 [0x103#10, 0x104#10], stateOf 0#16 [0x103#10, 0x200#10], 1, by decide, rfl, rfl⟩

theorem witness_BoundFor : ∃ (v : Acc) (s t : State), s.destination = v ∧ step s = .next t ∧ t ≠ s :=
  ⟨0x8300#16, stateOf 0xFFFF#16 [0x103#10, 0x104#10], _, by decide +kernel, rfl, by decide⟩

theorem witness_OneChangedByte : ∃ (pre post : List Byte) (b b' : Byte) (s s' : State) (inputs inputs' : List HostInput),
    b ≠ b' ∧ Presents (pre ++ b :: post) inputs ∧ Presents (pre ++ b' :: post) inputs' ∧
      s.pending = inputs ∧ s'.pending = inputs' :=
  ⟨[0x03#8], [0x02#8], 0x04#8, 0x05#8, stateOf 0#16 [0x200#10, 0x103#10, 0x104#10, 0x102#10],
    stateOf 7#16 [0x2FF#10, 0x103#10, 0x000#10, 0x105#10, 0x102#10],
    [0x200#10, 0x103#10, 0x104#10, 0x102#10].map command, [0x2FF#10, 0x103#10, 0x000#10, 0x105#10, 0x102#10].map command,
    by decide, ⟨by decide, by decide⟩, ⟨by decide, by decide⟩, rfl, rfl⟩

theorem witness_Injective : crc16 [0x01#8] = crc16 [0x01#8] ∧ crc16 [0x01#8, 0x02#8] = crc16 [0x01#8, 0x02#8] := ⟨rfl, rfl⟩

theorem witness_Readings : (0x7FFF#16).getLsbD 15 = false ∧ (0x8000#16).getLsbD 15 = true := by decide

/-- The document's example frame (S1 completed by V5), accepted (V6). -/
def exampleFrame : Frame := Frame.mk 0x03#8 0x04#8 0x02#8 0x2C#8 0x01#8 0x05#8 0xF0#8 0x0A#8

theorem witness_FrameCheck : ∃ (f : Frame) (s : State) (rest : List HostInput),
    s.pending = commandsOf (Instr.init :: [f.functionCode, f.registerCount, f.humidityHigh, f.humidityLow,
      f.temperatureHigh, f.temperatureLow].map Instr.byte) ++ rest :=
  ⟨exampleFrame, stateOf 0x1234#16 [0x200#10, 0x103#10, 0x104#10, 0x102#10, 0x12C#10, 0x101#10, 0x105#10], [], by decide⟩

theorem witness_FrameRejects_crc : ∃ f g : Frame, f.valid = true ∧ g.fed = f.fed ∧ g.crcLow ≠ f.crcLow :=
  ⟨exampleFrame, { exampleFrame with crcLow := 0xF1#8 }, by decide +kernel, rfl, by decide⟩
theorem witness_FrameRejects_crcHigh : ∃ f g : Frame, f.valid = true ∧ g.fed = f.fed ∧ g.crcHigh ≠ f.crcHigh :=
  ⟨exampleFrame, { exampleFrame with crcHigh := 0x8A#8 }, by decide +kernel, rfl, by decide⟩
theorem witness_FrameRejects_data : ∃ (f g : Frame) (pre post : List Byte) (b b' : Byte),
    f.valid = true ∧ g.wire = f.wire ∧ f.fed = pre ++ b :: post ∧ g.fed = pre ++ b' :: post ∧ b ≠ b' :=
  ⟨exampleFrame, { exampleFrame with humidityLow := 0x2D#8 }, [0x03#8, 0x04#8, 0x02#8], [0x01#8, 0x05#8], 0x2C#8, 0x2D#8,
    by decide +kernel, rfl, rfl, rfl, by decide⟩

theorem witness_Residue : ∃ (f : Frame) (s : State) (rest : List HostInput),
    s.pending = commandsOf (Instr.init :: f.bytes.map Instr.byte) ++ rest :=
  ⟨exampleFrame, stateOf 0#16 [0x200#10, 0x103#10, 0x104#10, 0x102#10, 0x12C#10, 0x101#10, 0x105#10, 0x1F0#10, 0x10A#10], [],
    by decide⟩

end Sys2Proof.Tests
end

section
/-!
PROOFS. The state: what the operations and reset write into `acc`, and what sampling the output leaves unchanged
(spec 10_state.md R14, R15).
-/

namespace Sys2Proof.Machine

/-! ## The answer of each operation and of reset -/

@[simp] theorem exec_hold (s : State) : exec .hold s = .next s := rfl

@[simp] theorem exec_byte (d : Byte) (s : State) : exec (.byte d) s = .next (s.writeAcc (absorb s.acc d)) := rfl

@[simp] theorem exec_init (s : State) : exec .init s = .next (s.writeAcc Config.initAcc) := rfl

theorem step_of_reset {s : State} (h : s.nextInput.reset = true) :
    step s = .next (hardwareReset s.consumeInput) := by
  simp [step, h]

/-! ## The datapath loses no information -/

/-- The constant of R49 has bit 15 set and the shift brings 0 there, so bit 15 of the result tells which branch was taken. -/
theorem getLsbD_step1_top (a : Acc) : (step1 a).getLsbD 15 = lowBit a := by
  cases h : lowBit a with
  | true => simp [step1_of_lowBit h]
  | false => simp [step1_of_not_lowBit h]

/-- The bit shifted out and the fifteen that stay are all the bits there are. -/
theorem eq_of_lowBit_eq_of_shiftRight_eq {a b : Acc} (hlow : lowBit a = lowBit b) (hshift : a >>> 1 = b >>> 1) :
    a = b := by
  refine BitVec.eq_of_getLsbD_eq fun i _ => ?_
  cases i with
  | zero => exact hlow
  | succ k => simpa [Nat.add_comm] using congrArg (·.getLsbD k) hshift

theorem step1_injective : Function.Injective step1 := by
  intro a b h
  have hlow : lowBit a = lowBit b := by rw [← getLsbD_step1_top, h, getLsbD_step1_top]
  refine eq_of_lowBit_eq_of_shiftRight_eq hlow ?_
  cases hb : lowBit b with
  | true => simpa [step1_of_lowBit (hlow.trans hb), step1_of_lowBit hb] using h
  | false => simpa [step1_of_not_lowBit (hlow.trans hb), step1_of_not_lowBit hb] using h

theorem absorb_left_injective (d : Byte) : Function.Injective fun a => absorb a d := fun _ _ h =>
  (BitVec.xor_left_inj (zext16 d)).mp (step1_injective.iterate 8 h)

/-! ## What writes `acc` (R14) -/

/-- Only reset, `CRC.INIT` and `CRC.BYTE` can make a step change `acc`. -/
theorem writer_of_step_changes_acc {s t : State} (h : step s = .next t) (hne : t.acc ≠ s.acc) :
    s.nextInput.reset = true ∨ decode s.nextInput.cmd = .init ∨ ∃ d, decode s.nextInput.cmd = .byte d := by
  obtain ⟨hreset, -⟩ | ⟨-, hexec⟩ := step_cases h
  · exact .inl hreset
  · obtain ⟨-, ht⟩ | ⟨d, hbyte, -⟩ | ⟨hinit, -⟩ := exec_cases hexec
    · exact absurd (congrArg State.acc ht) hne
    · exact .inr (.inr ⟨d, hbyte⟩)
    · exact .inr (.inl hinit)

/-- An injective function of the accumulator is not constant. -/
theorem not_constant_of_injective {f : Acc → Acc} (hf : Function.Injective f) (v : Acc) : ¬ ∀ a, f a = v :=
  fun h => absurd (hf ((h 0#16).trans (h 1#16).symm)) (by decide)

/-- `CRC.HOLD` and `CRC.BYTE` leave different accumulators different, so neither loads one fixed value. -/
theorem eq_init_of_loads_fixed_value {i : Instr} {v : Acc} (h : ∀ s : State, exec i s = .next (s.writeAcc v)) :
    i = .init ∧ v = Config.initAcc := by
  have hacc (a : Acc) : exec i ⟨⟨a⟩, []⟩ = .next (State.mk ⟨v⟩ []) := h ⟨⟨a⟩, []⟩
  cases i with
  | hold => exact absurd (fun a => by simpa using hacc a) (not_constant_of_injective Function.injective_id v)
  | byte d =>
    exact absurd (fun a => by simpa [State.writeAcc] using hacc a)
      (not_constant_of_injective (absorb_left_injective d) v)
  | init => exact ⟨rfl, by simpa [State.writeAcc] using (hacc 0#16).symm⟩

/-- Settles O10: the writers by the inversion of a step, the reading of `acc` by `CRC.BYTE` and the absence of another
load by the injectivity of `absorb`. -/
theorem onlyInitByteAndResetWriteAcc : Obligations.OnlyInitByteAndResetWriteAcc := by
  unfold Obligations.OnlyInitByteAndResetWriteAcc
  refine ⟨fun s => ⟨_, exec_init s, rfl⟩, fun s d => ⟨_, exec_byte d s, rfl⟩,
    fun s hreset => ⟨_, step_of_reset hreset, rfl⟩, fun s t => writer_of_step_changes_acc, fun d => ?reads,
    fun s => rfl, fun s t h => ?hold, fun i v => eq_init_of_loads_fixed_value⟩
  case reads =>
    refine ⟨⟨⟨0#16⟩, []⟩, ⟨⟨1#16⟩, []⟩, _, _, rfl, exec_byte d _, exec_byte d _, ?_⟩
    exact (absorb_left_injective d).ne (by decide : (0#16 : Acc) ≠ 1#16)
  case hold => simpa using h.symm

/-! ## Sampling the output (R15) -/

@[simp] theorem observe_sample (s : State) (rest : List HostAction) :
    observe (.sample :: rest) s = s.crcOut :: observe rest s := rfl

theorem observe_replicate_sample (n : Nat) (s : State) (rest : List HostAction) :
    observe (List.replicate n .sample ++ rest) s = List.replicate n s.crcOut ++ observe rest s := by
  induction n with
  | zero => rfl
  | succ n ih => simp [List.replicate_succ, ih]

theorem crcOut_eq_of_block_eq {s t : State} (h : s.block = t.block) : s.crcOut = t.crcOut :=
  congrArg Block.acc h

/-- Settles O12, the samples by induction on their number. -/
theorem outputIsAccAndSamplingHasNoEffect : Obligations.OutputIsAccAndSamplingHasNoEffect := by
  unfold Obligations.OutputIsAccAndSamplingHasNoEffect
  exact ⟨fun s i _ => rfl, fun s t => crcOut_eq_of_block_eq, observe_replicate_sample⟩

end Sys2Proof.Machine
end

section
/-!
PROOFS. The encoding: a command word is its three fields, the row it selects is the row of its operation, what is
no command word is refused, and what a pseudo-operation leaves on the output (spec 30_encoding.md R38 to R46).
-/

namespace Sys2Proof

/-! ## A command word is its three fields (R38) -/

theorem dataField_eq_setWidth (w : CmdWord) : dataField w = w.setWidth 8 := by
  ext k hk
  simp [dataField]

theorem cmdWord_eq_of_fields_eq {v w : CmdWord} (hinit : initField v = initField w) (hen : enField v = enField w)
    (hdata : dataField v = dataField w) : v = w := by
  refine BitVec.eq_of_getLsbD_eq fun k hk => ?_
  obtain hlow | rfl | rfl : k < 8 ∨ k = 8 ∨ k = 9 := by omega
  · simpa [dataField, hlow] using congrArg (·.getLsbD k) hdata
  · exact hen
  · exact hinit

theorem packFields_fields (w : CmdWord) : packFields (initField w) (enField w) (dataField w) = w :=
  cmdWord_eq_of_fields_eq (by simp) (by simp) (by simp)

/-- The three groups of command words of R40, by the values of their strobes. -/
theorem cmdWord_cases (w : CmdWord) :
    (∃ d, w = packFields false false d) ∨ (∃ d, w = packFields false true d) ∨ ∃ e d, w = packFields true e d := by
  rw [← packFields_fields w]
  cases initField w with
  | true => exact .inr (.inr ⟨_, _, rfl⟩)
  | false =>
    cases enField w with
    | true => exact .inr (.inl ⟨_, rfl⟩)
    | false => exact .inl ⟨_, rfl⟩

@[simp] theorem initField_and (v w : CmdWord) : initField (v &&& w) = (initField v && initField w) :=
  BitVec.getLsbD_and

@[simp] theorem enField_and (v w : CmdWord) : enField (v &&& w) = (enField v && enField w) :=
  BitVec.getLsbD_and

@[simp] theorem dataField_and (v w : CmdWord) : dataField (v &&& w) = dataField v &&& dataField w := by
  simp [dataField_eq_setWidth]

@[simp] theorem packFields_and (i e i' e' : Bool) (d d' : Byte) :
    packFields i e d &&& packFields i' e' d' = packFields (i && i') (e && e') (d &&& d') :=
  cmdWord_eq_of_fields_eq (by simp) (by simp) (by simp)

@[simp] theorem packFields_inj {i e i' e' : Bool} {d d' : Byte} :
    packFields i e d = packFields i' e' d' ↔ i = i' ∧ e = e' ∧ d = d' := by
  refine ⟨fun h => ⟨?_, ?_, ?_⟩, fun ⟨hi, he, hd⟩ => by rw [hi, he, hd]⟩
  · simpa using congrArg initField h
  · simpa using congrArg enField h
  · simpa using congrArg dataField h

theorem toNat_packFields (i e : Bool) (d : Byte) :
    (packFields i e d).toNat = i.toNat * 512 + e.toNat * 256 + d.toNat := by
  simp only [packFields, BitVec.toNat_cast, BitVec.toNat_append, BitVec.toNat_ofBool,
    ← Nat.shiftLeft_add_eq_or_of_lt d.isLt, ← Nat.shiftLeft_add_eq_or_of_lt (i := 1) e.toNat_lt]
  omega

/-! ## The decoder (R39) -/

theorem decode_of_initField {w : CmdWord} (hinit : initField w = true) : decode w = .init := by
  simp [decode, hinit]

theorem decode_of_enField {w : CmdWord} (hinit : initField w = false) (hen : enField w = true) :
    decode w = .byte (dataField w) := by
  simp [decode, hinit, hen]

theorem decode_of_no_strobe {w : CmdWord} (hinit : initField w = false) (hen : enField w = false) :
    decode w = .hold := by
  simp [decode, hinit, hen]

@[simp] theorem decode_packFields_hold (d : Byte) : decode (packFields false false d) = .hold :=
  decode_of_no_strobe (by simp) (by simp)

@[simp] theorem decode_packFields_byte (d : Byte) : decode (packFields false true d) = .byte d := by
  rw [decode_of_enField (by simp) (by simp), dataField_packFields]

@[simp] theorem decode_packFields_init (e : Bool) (d : Byte) : decode (packFields true e d) = .init :=
  decode_of_initField (by simp)

/-- Settles O13: the two strobes choose the branch of the decoder, and the `data` field is the low eight bits. -/
theorem decoderReadsTheTwoTopBits : Obligations.DecoderReadsTheTwoTopBits := by
  unfold Obligations.DecoderReadsTheTwoTopBits
  intro w
  rw [← dataField_eq_setWidth w]
  exact ⟨decode_of_initField, decode_of_enField, decode_of_no_strobe⟩

/-! ## The rows of the opcode table (R40) -/

theorem Opcode.row_mask (o : Opcode) : o.row.mask = packFields true (!decide (o = .init)) 0#8 := by
  cases o <;> decide

theorem Opcode.row_pattern (o : Opcode) : o.row.pattern = packFields (decide (o = .init)) (decide (o = .byte)) 0#8 := by
  cases o <;> decide

/-- A word selects the row of the operation it decodes to, and no other. -/
theorem row_selects (o : Opcode) (w : CmdWord) : o.row.selects w = decide ((decode w).opcode = o) := by
  rw [TableRow.selects, Opcode.row_mask, Opcode.row_pattern]
  obtain ⟨d, rfl⟩ | ⟨d, rfl⟩ | ⟨e, d, rfl⟩ := cmdWord_cases w <;> cases o <;> simp [Instr.opcode]

theorem filter_selects (w : CmdWord) : (opcodeTable.filter fun r => r.selects w) = [(decode w).opcode.row] := by
  simp only [opcodeTable, List.filter_cons, List.filter_nil, row_selects]
  cases (decode w).opcode <;> rfl

@[simp] theorem Opcode.opcode_withData (o : Opcode) (d : Byte) : (o.withData d).opcode = o := by
  cases o <;> rfl

theorem withData_opcode_decode (w : CmdWord) : (decode w).opcode.withData (dataField w) = decode w := by
  obtain ⟨d, rfl⟩ | ⟨d, rfl⟩ | ⟨e, d, rfl⟩ := cmdWord_cases w <;> simp [Instr.opcode, Opcode.withData]

/-- A word matches a row under its mask exactly when it decodes to the row's operation on the word's `data` field. -/
theorem and_mask_eq_pattern_iff (o : Opcode) (w : CmdWord) :
    w &&& o.row.mask = o.row.pattern ↔ decode w = o.withData (dataField w) := by
  have hselects : w &&& o.row.mask = o.row.pattern ↔ (decode w).opcode = o := by
    rw [← decide_eq_true_eq (p := _ = o), ← row_selects, TableRow.selects, beq_iff_eq]
  rw [hselects]
  exact ⟨fun h => by rw [← h, withData_opcode_decode], fun h => by rw [h, Opcode.opcode_withData]⟩

theorem decode_eq_hold_iff (w : CmdWord) : decode w = .hold ↔ w.toNat ≤ 0x0FF := by
  obtain ⟨d, rfl⟩ | ⟨d, rfl⟩ | ⟨e, d, rfl⟩ := cmdWord_cases w <;> simp [toNat_packFields] <;> omega

theorem decode_eq_byte_iff (w : CmdWord) :
    decode w = .byte (dataField w) ↔ 0x100 ≤ w.toNat ∧ w.toNat ≤ 0x1FF := by
  obtain ⟨d, rfl⟩ | ⟨d, rfl⟩ | ⟨e, d, rfl⟩ := cmdWord_cases w <;> simp [toNat_packFields] <;> omega

theorem decode_eq_init_iff (w : CmdWord) : decode w = .init ↔ 0x200 ≤ w.toNat := by
  obtain ⟨d, rfl⟩ | ⟨d, rfl⟩ | ⟨e, d, rfl⟩ := cmdWord_cases w <;> simp [toNat_packFields] <;> omega

/-- Settles O14: each mask by the row its word selects, each range by the word's value as a sum of its fields. -/
theorem rowsMatchTheirMasksAndPartitionTheWords : Obligations.RowsMatchTheirMasksAndPartitionTheWords := by
  unfold Obligations.RowsMatchTheirMasksAndPartitionTheWords
  intro w
  have hlt := w.isLt
  rw [← dataField_eq_setWidth w]
  refine ⟨and_mask_eq_pattern_iff .hold w, and_mask_eq_pattern_iff .byte w, and_mask_eq_pattern_iff .init w,
    decode_eq_hold_iff w, decode_eq_byte_iff w, ?_, ?_⟩
  · rw [decode_eq_init_iff]; omega
  · rw [filter_selects]; rfl

/-! ## Canonical words (R42, R46) -/

@[simp] theorem decode_encode (i : Instr) : decode (encode i) = i := by
  cases i <;> simp [encode]

theorem encode_byte_eq_add (d : Byte) : encode (.byte d) = 0x100#10 + d.setWidth 10 := by
  apply BitVec.eq_of_toNat_eq
  simp [encode, toNat_packFields]
  omega

theorem readMask_eq (o : Opcode) :
    readMask o = packFields true (!decide (o = .init)) (if o = .byte then 0xFF#8 else 0#8) := by
  cases o <;> decide

/-- A canonical word has no ignored bit set. -/
@[simp] theorem clearIgnored_encode (i : Instr) : clearIgnored (encode i) = encode i := by
  rw [clearIgnored, decode_encode, readMask_eq]
  cases i with
  | hold => simp [encode, Instr.opcode]
  | byte d =>
    have hall : d &&& 0xFF#8 = d := BitVec.and_allOnes
    simp [encode, Instr.opcode, hall]
  | init => simp [encode, Instr.opcode]

/-! ## What is no command word (R43) -/

theorem decodeInteger_lt {n : Nat} (h : n < 1024) : decodeInteger n = .ok (decode (BitVec.ofNat 10 n)) := by
  rw [decodeInteger, wordOfInteger_lt h]; rfl

theorem decodeInteger_ge {n : Nat} (h : 1024 ≤ n) : decodeInteger n = .error (.bitsAboveNine n) := by
  rw [decodeInteger, wordOfInteger_ge h]; rfl

theorem wordOfVector_of_other_width {n : Nat} (h : n ≠ 10) (v : BitVec n) :
    wordOfVector n v = .error (.notTenBits n) := dif_neg h

@[simp] theorem wordOfVector_ten (w : CmdWord) : wordOfVector 10 w = .ok w := rfl

/-- Settles O17, the integers by the reading of an integer as a word, the vectors by their width. -/
theorem whatIsNoTenBitWordIsRefused : Obligations.WhatIsNoTenBitWordIsRefused := by
  unfold Obligations.WhatIsNoTenBitWordIsRefused
  exact ⟨fun _ => decodeInteger_ge, fun _ => decodeInteger_lt, fun _ v hn => wordOfVector_of_other_width hn v,
    wordOfVector_ten⟩

end Sys2Proof

namespace Sys2Proof.Machine

/-! ## What one input, and a list of inputs, makes of the state -/

theorem inputEffect_of_reset (a : Acc) {inp : HostInput} (h : inp.reset = true) : inputEffect a inp = Config.initAcc :=
  if_pos h

@[simp] theorem inputEffect_command_byte (a : Acc) (d : Byte) :
    inputEffect a (command (encode (.byte d))) = absorb a d := by simp [inputEffect]

@[simp] theorem inputEffect_command_init (a : Acc) : inputEffect a (command (encode .init)) = Config.initAcc := by
  simp [inputEffect]

theorem step_of_no_reset {s : State} (h : s.nextInput.reset = false) :
    step s = exec (decode s.nextInput.cmd) s.consumeInput := by
  simp [step, h]

theorem exec_decode {s : State} {inp : HostInput} (h : inp.reset = false) :
    exec (decode inp.cmd) s = .next (s.writeAcc (inputEffect s.acc inp)) := by
  cases hop : decode inp.cmd <;> simp [inputEffect, h, hop]

/-- A step on a pending input answers a next state: the input is used up and has its effect on `acc`. -/
theorem step_of_pending {s : State} {inp : HostInput} {rest : List HostInput} (h : s.pending = inp :: rest) :
    step s = .next { block := { acc := inputEffect s.acc inp }, pending := rest } := by
  cases hreset : inp.reset with
  | true =>
    rw [step_of_reset (by rw [State.nextInput_cons h, hreset]), State.consumeInput_cons h,
      inputEffect_of_reset s.acc hreset]
    rfl
  | false =>
    rw [step_of_no_reset (by rw [State.nextInput_cons h, hreset]), State.nextInput_cons h, State.consumeInput_cons h,
      exec_decode hreset]
    rfl

/-- Settles O16: a step on a pending word answers, and the words are read as their fields. -/
theorem everyCommandWordDecodesAndRuns : Obligations.EveryCommandWordDecodesAndRuns := by
  unfold Obligations.EveryCommandWordDecodesAndRuns
  exact ⟨fun s w rest h => ⟨_, step_of_pending h⟩, fun w => (decode_eq_hold_iff w).mpr,
    fun w => (decode_eq_init_iff w).mpr, decode_packFields_init true, by decide, by decide, encode_byte_eq_add,
    clearIgnored_encode⟩

theorem runSteps_of_pending {inputs rest : List HostInput} {s : State} (h : s.pending = inputs ++ rest) :
    runSteps inputs.length s = .next { block := { acc := inputs.foldl inputEffect s.acc }, pending := rest } := by
  induction inputs generalizing s with
  | nil => obtain rfl : s.pending = rest := h; rfl
  | cons inp inputs ih => rw [List.length_cons, runSteps_succ (step_of_pending h), ih rfl]; rfl

/-! ## Pseudo-operations (R45) -/

@[simp] theorem byteOperand_toNat (b : Byte) : byteOperand b.toNat = some b := by
  simp [byteOperand, byteOperandOk, b.isLt]

@[simp] theorem byteOperandList_toNat (bs : List Byte) : byteOperandList (bs.map BitVec.toNat) = some bs := by
  induction bs with
  | nil => rfl
  | cons b bs ih => simp [byteOperandList, ih]

theorem expandSource_bytes (bs : List Byte) :
    expandSource (.bytes (bs.map BitVec.toNat)) = some (bs.map Instr.byte) := by
  simp [expandSource, bytesOps]

theorem expandSource_msg (bs : List Byte) :
    expandSource (.msg (bs.map BitVec.toNat)) = some (.init :: bs.map Instr.byte) := by
  simp [expandSource, messageOps, bytesOps]

theorem foldl_inputEffect_bytes (a : Acc) (bs : List Byte) :
    (commandsOf (bs.map Instr.byte)).foldl inputEffect a = crc16From a bs := by
  induction bs generalizing a with
  | nil => rfl
  | cons b bs ih => simpa [commandsOf, crc16From] using ih (absorb a b)

/-- `CRC.INIT` makes the accumulator before it irrelevant, so what follows is the checksum (R63). -/
theorem foldl_inputEffect_message (a : Acc) (bs : List Byte) :
    (commandsOf (.init :: bs.map Instr.byte)).foldl inputEffect a = crc16 bs :=
  foldl_inputEffect_bytes _ bs

/-- Settles O20: the run of the expansion folds the effects of its words, which is the fold of the checksum. -/
theorem pseudoOperationsExpandAndMsgComputesTheChecksum :
    Obligations.PseudoOperationsExpandAndMsgComputesTheChecksum := by
  unfold Obligations.PseudoOperationsExpandAndMsgComputesTheChecksum
  refine ⟨rfl, expandSource_bytes, expandSource_msg, expandSource_bytes [], expandSource_msg [], ?_⟩
  intro bs ops s rest hops hpending
  obtain rfl : .init :: bs.map Instr.byte = ops := by simpa [expandSource_msg] using hops
  have hrun := runSteps_of_pending hpending
  rw [foldl_inputEffect_message] at hrun
  exact ⟨_, by simpa [commandsOf] using hrun, rfl, rfl⟩

end Sys2Proof.Machine
end

section
/-!
PROOFS. The three operations and the two functions of the datapath they rest on (spec 40_accumulator_ops.md R49 to R53).
-/

namespace Sys2Proof.Machine

/-! ## One iteration (R49) -/

/-- The shift is logical: nothing comes in at the top. -/
@[simp] theorem getLsbD_shiftRightOne_top (a : Acc) : (shiftRightOne a).getLsbD 15 = false := by
  simp [shiftRightOne]

/-- Settles O22: the two branches of the iteration by the low bit, the examples by evaluation. -/
theorem iterationShiftsThenXorsWhenTheLowBitWasSet : Obligations.IterationShiftsThenXorsWhenTheLowBitWasSet := by
  unfold Obligations.IterationShiftsThenXorsWhenTheLowBitWasSet
  exact ⟨fun a => ⟨step1_of_lowBit, step1_of_not_lowBit, getLsbD_shiftRightOne_top a⟩, by decide⟩

/-! ## One byte (R50) -/

@[simp] theorem highByte_xor (a b : Acc) : highByte (a ^^^ b) = highByte a ^^^ highByte b :=
  BitVec.extractLsb'_xor

@[simp] theorem lowByte_xor (a b : Acc) : lowByte (a ^^^ b) = lowByte a ^^^ lowByte b :=
  BitVec.extractLsb'_xor

@[simp] theorem highByte_zext16 (d : Byte) : highByte (zext16 d) = 0#8 := by
  ext k hk
  simp [highByte, getLsbD_zext16]

@[simp] theorem lowByte_zext16 (d : Byte) : lowByte (zext16 d) = d := by
  ext k hk
  simp [lowByte, getLsbD_zext16, BitVec.getLsbD_eq_getElem hk]

/-- Settles O23: the eight iterations are those of `absorb`, and the zero extension leaves the high byte alone. -/
theorem absorbIsOneXorThenEightIterations : Obligations.AbsorbIsOneXorThenEightIterations := by
  unfold Obligations.AbsorbIsOneXorThenEightIterations
  exact ⟨absorb_eq_iterate, fun a d => ⟨by simp, by simp⟩, by decide⟩

theorem zext16_injective : Function.Injective zext16 := fun d d' h => by
  simpa using congrArg lowByte h

theorem absorb_right_injective (a : Acc) : Function.Injective (absorb a) := fun _ _ h =>
  zext16_injective ((BitVec.xor_right_inj a).mp (step1_injective.iterate 8 h))

/-! ## A step on a pending command word -/

theorem step_of_pending_command {s : State} {w : CmdWord} {rest : List HostInput}
    (h : s.pending = command w :: rest) : step s = exec (decode w) { s with pending := rest } := by
  rw [step_of_pending h]
  exact (exec_decode (s := { s with pending := rest }) (reset_command w)).symm

/-! ## `CRC.HOLD` (R51) -/

/-- Settles O7: the word decodes to `CRC.HOLD` whatever its data bits, and `CRC.HOLD` answers the state it is given. -/
theorem holdLeavesEverythingUnchanged : Obligations.HoldLeavesEverythingUnchanged := by
  unfold Obligations.HoldLeavesEverythingUnchanged
  refine ⟨exec_hold, by decide, fun s d rest h => ⟨decode_packFields_hold d, ?step⟩, fun s t h => ?output⟩
  case step => rw [step_of_pending_command h, decode_packFields_hold, exec_hold]
  case output =>
    obtain rfl : s = t := by simpa using h
    rfl

/-! ## `CRC.BYTE` (R52) -/

/-- Flipping a bit inside the width changes the value. -/
theorem xor_bit_ne {n i : Nat} (v : BitVec n) (hi : i < n) : v ^^^ (1#n <<< i) ≠ v := fun h => by
  have hbit := congrArg (·.getLsbD i) h
  simp [hi] at hbit

theorem step_of_pending_byte {s : State} {d : Byte} {rest : List HostInput}
    (h : s.pending = command (encode (.byte d)) :: rest) :
    step s = .next { block := { acc := absorb s.acc d }, pending := rest } := by
  rw [step_of_pending_command h, decode_encode]
  rfl

/-- Settles O8: each step by the word it decodes, and every bit counts because `absorb` is injective in both arguments. -/
theorem byteAbsorbsItsOperandIntoAcc : Obligations.ByteAbsorbsItsOperandIntoAcc := by
  unfold Obligations.ByteAbsorbsItsOperandIntoAcc
  refine ⟨fun s d => exec_byte d s, fun s d rest h => step_of_pending_byte (by rw [h, encode_byte_eq_add]), by decide,
    fun s d rest h => ?twice, fun a d i hi => ?accBit, fun a d i hi => ?dataBit, by decide⟩
  case twice => rw [runSteps_succ (step_of_pending_byte h), runSteps_succ (step_of_pending_byte rfl)]; rfl
  case accBit => exact (absorb_left_injective d).ne (xor_bit_ne a hi)
  case dataBit => exact (absorb_right_injective a).ne (xor_bit_ne d hi)

/-! ## `CRC.INIT` (R53) -/

theorem exec_init_eq_of_pending_eq {s s' : State} (h : s.pending = s'.pending) : exec .init s = exec .init s' := by
  simp [State.writeAcc, h]

/-- A `CRC.INIT` at the end of any sequence of operations leaves all ones, whatever they made of `acc`. -/
theorem foldl_inputEffect_append_init (a : Acc) (ops : List Instr) :
    (commandsOf (ops ++ [.init])).foldl inputEffect a = Config.initAcc := by
  simp [commandsOf]

/-- Settles O9: the words by their decoding, the discarded bytes by the fold of the inputs' effects. -/
theorem initMakesAccAllOnes : Obligations.InitMakesAccAllOnes := by
  unfold Obligations.InitMakesAccAllOnes
  refine ⟨exec_init, by decide, fun s e d rest h => ?step, fun s s' => exec_init_eq_of_pending_eq, fun s t h => ?twice,
    fun s m rest h => ?discards⟩
  case step =>
    rw [step_of_pending_command h, decode_packFields_init]
    rfl
  case twice =>
    obtain rfl : s.writeAcc Config.initAcc = t := by simpa using h
    exact ⟨by simp, rfl, rfl⟩
  case discards =>
    have hrun := runSteps_of_pending h
    rw [foldl_inputEffect_append_init] at hrun
    simpa [commandsOf, Config.initAcc] using hrun

end Sys2Proof.Machine
end

section
/-!
PROOFS. The message function, the readings of a pattern as a number, and the host's comparison of a frame
(spec 41_message_function.md R61, R66, R70).
-/

namespace Sys2Proof.Machine

/-! ## The checksum as a loop (R61) -/

theorem crc16From_eq_foldl (a : Acc) (m : List Byte) : crc16From a m = m.foldl absorb a := by
  induction m generalizing a with
  | nil => rfl
  | cons b rest ih => exact ih (absorb a b)

/-- Settles O30: the checksum is the left fold of `absorb`, whose body is the document's loop body; the worked
example by evaluation. -/
theorem checksumIsTheDocumentsLoop : Obligations.ChecksumIsTheDocumentsLoop := by
  unfold Obligations.ChecksumIsTheDocumentsLoop
  exact ⟨fun a => rfl, fun a b rest => rfl, fun m => rfl, crc16From_eq_foldl Config.initAcc, by decide⟩

/-! ## The readings of a pattern (R66) -/

theorem mod_two_pow_eq_sum_testBit (x n : Nat) :
    x % 2 ^ n = ∑ i ∈ Finset.range n, (x.testBit i).toNat * 2 ^ i := by
  induction n with
  | zero => simp [Nat.mod_one]
  | succ n ih => rw [Finset.sum_range_succ, ← ih, Nat.mod_pow_succ, Nat.toNat_testBit, Nat.mul_comm (2 ^ n)]

theorem unsignedReading_eq_sum (p : Acc) :
    unsignedReading p = ∑ i ∈ Finset.range 16, (p.getLsbD i).toNat * 2 ^ i :=
  calc unsignedReading p = p.toNat % 2 ^ 16 := (Nat.mod_eq_of_lt p.isLt).symm
    _ = _ := mod_two_pow_eq_sum_testBit p.toNat 16

theorem unsignedReading_le (p : Acc) : unsignedReading p ≤ 65535 := Nat.le_of_lt_succ p.isLt

theorem signedReading_of_top_clear {p : Acc} (h : p.getLsbD 15 = false) : signedReading p = unsignedReading p :=
  if_neg (Bool.eq_false_iff.mp h)

theorem signedReading_of_top_set {p : Acc} (h : p.getLsbD 15 = true) :
    signedReading p = (unsignedReading p : Int) - 65536 :=
  if_pos h

/-- The signed reading is the library's two's-complement reading. -/
theorem signedReading_eq_toInt (p : Acc) : signedReading p = p.toInt := by
  rw [BitVec.toInt_eq_msb_cond, BitVec.msb_eq_getLsbD_last]
  rfl

theorem unsignedReading_eq_iff {p q : Acc} : unsignedReading p = unsignedReading q ↔ p = q := BitVec.toNat_inj

theorem signedReading_eq_iff {p q : Acc} : signedReading p = signedReading q ↔ p = q := by
  rw [signedReading_eq_toInt, signedReading_eq_toInt, BitVec.toInt_inj]

theorem signedReading_range (p : Acc) : -32768 ≤ signedReading p ∧ signedReading p ≤ 32767 := by
  rw [signedReading_eq_toInt]
  exact ⟨p.le_toInt, Int.le_of_lt_add_one p.toInt_lt⟩

/-- Settles O43: both readings are injective, so equality of either is equality of patterns. -/
theorem patternAndReadingsAgreeOnEquality : Obligations.PatternAndReadingsAgreeOnEquality := by
  unfold Obligations.PatternAndReadingsAgreeOnEquality
  exact ⟨unsignedReading_eq_sum, fun p => ⟨unsignedReading_le p, signedReading_range p⟩,
    fun p => ⟨signedReading_of_top_clear, signedReading_of_top_set⟩,
    fun p q => ⟨unsignedReading_eq_iff.trans signedReading_eq_iff.symm, signedReading_eq_iff⟩, by decide⟩

/-! ## The comparison of a frame (R70) -/

theorem toNat_joinBytes (h l : Byte) : (joinBytes h l).toNat = 256 * h.toNat + l.toNat := by
  rw [joinBytes, BitVec.toNat_cast, BitVec.toNat_append, ← Nat.shiftLeft_add_eq_or_of_lt l.isLt, Nat.shiftLeft_eq,
    Nat.mul_comm]

theorem eq_joinBytes_iff {v : Acc} {h l : Byte} : v = joinBytes h l ↔ lowByte v = l ∧ highByte v = h := by
  constructor
  · rintro rfl
    exact ⟨lowByte_joinBytes h l, highByte_joinBytes h l⟩
  · rintro ⟨rfl, rfl⟩
    exact (joinBytes_highByte_lowByte v).symm

theorem Frame.valid_iff (f : Frame) : f.valid = true ↔ crc16 f.fed = f.wire := beq_iff_eq

theorem Frame.not_valid_iff (f : Frame) : f.valid = false ↔ crc16 f.fed ≠ f.wire := beq_eq_false_iff_ne

theorem Frame.check_eq_ok_iff (f : Frame) (c : Acc) : f.check c = .ok () ↔ c = f.wire := by
  by_cases h : c = f.wire <;> simp [Frame.check, h]

theorem Frame.check_eq_error_iff (f : Frame) (c : Acc) :
    f.check c = .error .integrityFailure ↔ c ≠ f.wire := by
  by_cases h : c = f.wire <;> simp [Frame.check, h]

/-- Presenting `CRC.INIT` and then the bytes of a message leaves its checksum, from every state. -/
theorem runSteps_of_pending_message {bs : List Byte} {rest : List HostInput} {s : State}
    (h : s.pending = commandsOf (.init :: bs.map Instr.byte) ++ rest) :
    runSteps (bs.length + 1) s = .next { block := { acc := crc16 bs }, pending := rest } := by
  have hrun := runSteps_of_pending h
  rw [foldl_inputEffect_message] at hrun
  simpa [commandsOf] using hrun

/-- Settles O44: the run leaves the checksum of bytes 0 to 5, and the check and validity compare it with the wire value. -/
theorem frameIsAcceptedExactlyWhenChecksumEqualsWireValue :
    Obligations.FrameIsAcceptedExactlyWhenChecksumEqualsWireValue := by
  unfold Obligations.FrameIsAcceptedExactlyWhenChecksumEqualsWireValue
  intro f s rest h
  refine ⟨_, runSteps_of_pending_message (bs := f.fed) h, rfl, rfl, ?accepts, ?rejects, ?bytes,
    toNat_joinBytes f.crcHigh f.crcLow⟩
  case accepts => exact (f.check_eq_ok_iff _).trans f.valid_iff.symm
  case rejects => exact (f.check_eq_error_iff _).trans f.not_valid_iff.symm
  case bytes => exact f.valid_iff.trans eq_joinBytes_iff

end Sys2Proof.Machine
end

section
/-!
PROOFS. No outcome but a next state, and the two coincidences on the block's inputs (spec 60_exceptions.md R74, R77).
-/

namespace Sys2Proof.Machine

/-! ## Totality (R74) -/

theorem completes_exec (i : Instr) (s : State) : Completes (exec i s) := by
  cases i with
  | hold => exact ⟨_, exec_hold s⟩
  | byte d => exact ⟨_, exec_byte d s⟩
  | init => exact ⟨_, exec_init s⟩

theorem completes_step (s : State) : Completes (step s) := by
  cases hreset : s.nextInput.reset with
  | true => exact ⟨_, step_of_reset hreset⟩
  | false =>
    rw [step_of_no_reset hreset]
    exact completes_exec _ _

theorem completes_runSteps (n : Nat) (s : State) : Completes (runSteps n s) := by
  induction n generalizing s with
  | zero => exact ⟨s, runSteps_zero s⟩
  | succ n ih =>
    obtain ⟨t, hstep⟩ := completes_step s
    rw [runSteps_succ hstep]
    exact ih t

/-- Settles O6: each operation has an answer, so each step has, and so has a run by induction on its length. -/
theorem noStepNoOperationAndNoRunEverStops : Obligations.NoStepNoOperationAndNoRunEverStops := by
  unfold Obligations.NoStepNoOperationAndNoRunEverStops
  exact ⟨completes_step, completes_exec, completes_runSteps⟩

/-! ## Coincidences (R77) -/

/-- Reset beats the command word presented with it, whichever word that is. -/
theorem step_of_pending_reset {s : State} {w : CmdWord} {rest : List HostInput}
    (h : s.pending = { reset := true, cmd := w } :: rest) :
    step s = .next { block := { acc := Config.initAcc }, pending := rest } := by
  rw [step_of_pending h, inputEffect_of_reset s.acc rfl]

/-- Settles O2: with `init` set the decoder does not look at `en`, and with reset present the step does not look at the
command. -/
theorem initBeatsEnableAndResetBeatsCommand : Obligations.InitBeatsEnableAndResetBeatsCommand := by
  unfold Obligations.InitBeatsEnableAndResetBeatsCommand
  refine fun s d w rest => ⟨fun h => ⟨?decoded, ?step⟩, step_of_pending_reset⟩
  case decoded => rw [decode_packFields_init]
  case step =>
    rw [step_of_pending_command h, decode_packFields_init, exec_init]
    rfl

end Sys2Proof.Machine
end

section
/-!
PROOFS. Hardware reset (spec 70_reset_and_hazards.md R89).
-/

namespace Sys2Proof.Machine

/-- Settles O1: the state after reset by its definition, the priority by the step on a pending reset. -/
theorem hardwareResetSetsAllOnesAndBeatsTheCommand : Obligations.HardwareResetSetsAllOnesAndBeatsTheCommand := by
  unfold Obligations.HardwareResetSetsAllOnesAndBeatsTheCommand
  exact ⟨State.reset_acc, fun s w rest h => step_of_pending_reset h⟩

end Sys2Proof.Machine
end

section
/-!
PROOFS. Decoder, encoder and opcode table agree on the whole instruction set, and what is refused as no command word is
never presented (spec 30_encoding.md R40, R42, R43, R46, section 5).
-/

namespace Sys2Proof

/-! ## Decode and encode (R46) -/

/-- Clearing the ignored bits leaves the canonical word of what the word decodes to. -/
theorem encode_decode (w : CmdWord) : encode (decode w) = clearIgnored w := by
  rw [clearIgnored, readMask_eq]
  obtain ⟨d, rfl⟩ | ⟨d, rfl⟩ | ⟨e, d, rfl⟩ := cmdWord_cases w
  · simp [encode, Instr.opcode]
  · have hall : d &&& 0xFF#8 = d := BitVec.and_allOnes
    simp [encode, Instr.opcode, hall]
  · simp [encode, Instr.opcode]

@[simp] theorem decode_clearIgnored (w : CmdWord) : decode (clearIgnored w) = decode w := by
  rw [← encode_decode, decode_encode]

theorem decode_eq_decode_iff (v w : CmdWord) : decode v = decode w ↔ clearIgnored v = clearIgnored w := by
  refine ⟨fun h => ?_, fun h => ?_⟩
  · rw [← encode_decode, h, encode_decode]
  · rw [← decode_clearIgnored v, h, decode_clearIgnored]

/-! ## Words of the opcode table -/

theorem decodeTableWord_of_lt {nbits w : Nat} (hbits : nbits = 10 ∨ nbits = 16) (hw : w < 1024) :
    decodeTableWord nbits w = some (decode (BitVec.ofNat 10 w)) := by
  simp [decodeTableWord, wordOfTableBits_of_width hbits, wordOfInteger_lt hw]

theorem decodeTableWord_toNat {nbits : Nat} (hbits : nbits = 10 ∨ nbits = 16) (w : CmdWord) :
    decodeTableWord nbits w.toNat = some (decode w) := by
  rw [decodeTableWord_of_lt hbits w.isLt, BitVec.ofNat_toNat, BitVec.setWidth_eq]

/-- A table word is read exactly when it stands for a command word, and then as that word. -/
theorem decodeTableWord_eq_some {nbits w : Nat} {i : Instr} (h : decodeTableWord nbits w = some i) :
    ∃ cmd, wordOfTableBits nbits w = .ok cmd ∧ decode cmd = i := by
  unfold decodeTableWord at h
  split at h
  · next cmd hcmd => exact ⟨cmd, hcmd, by simpa using h⟩
  · contradiction

theorem decodeTableWord_eq_none {nbits w : Nat} (h : decodeTableWord nbits w = none) :
    ∃ e, wordOfTableBits nbits w = .error e := by
  unfold decodeTableWord at h
  split at h
  · contradiction
  · next e he => exact ⟨e, he⟩

theorem decodeTableWord_of_error {nbits w : Nat} {e : DecodeError} (h : wordOfTableBits nbits w = .error e) :
    decodeTableWord nbits w = none := by
  simp [decodeTableWord, h]

/-- A value from 1024 up is refused at every width, for the width or for its upper bits. -/
theorem wordOfTableBits_of_ge (nbits : Nat) {w : Nat} (hw : 1024 ≤ w) : ∃ e, wordOfTableBits nbits w = .error e := by
  by_cases hbits : nbits = 10 ∨ nbits = 16
  · exact ⟨_, by rw [wordOfTableBits_of_width hbits, wordOfInteger_ge hw]⟩
  · exact ⟨_, wordOfTableBits_of_other_width hbits w⟩

/-- Settles O19: a canonical word decodes to its operation, and the canonical word of what a word decodes to is the word
with its ignored bits cleared, so decoding and clearing forget the same bits. -/
theorem decodeAndEncodeAgreeOnEveryOperation : Obligations.DecodeAndEncodeAgreeOnEveryOperation := by
  unfold Obligations.DecodeAndEncodeAgreeOnEveryOperation
  refine ⟨fun i _ => decode_encode i, fun w => ⟨encode_decode w, decode_clearIgnored w⟩, fun i nbits hbits => ?table,
    decode_eq_decode_iff⟩
  case table => rw [decodeTableWord_toNat hbits, decode_encode]

/-! ## The decoder written from the table (R40, R48) -/

theorem find?_selects (w : CmdWord) : (opcodeTable.find? fun r => r.selects w) = some (decode w).opcode.row := by
  rw [← List.head?_filter, filter_selects, List.head?_cons]

@[simp] theorem Opcode.opcode_row (o : Opcode) : o.row.opcode = o := by
  cases o <;> rfl

/-- Settles O15: the first row a word selects is the row of the operation it decodes to. -/
theorem decoderFromTheTableAloneIsTheDecoder : Obligations.DecoderFromTheTableAloneIsTheDecoder := by
  unfold Obligations.DecoderFromTheTableAloneIsTheDecoder
  intro w
  rw [decodeByTable, find?_selects, Option.map_some, Opcode.opcode_row, withData_opcode_decode]

/-- Settles O18, by evaluation of the decoder on the ten words. -/
theorem sampleWordsDecodeAsWrittenOut : Obligations.SampleWordsDecodeAsWrittenOut := by
  unfold Obligations.SampleWordsDecodeAsWrittenOut
  decide

end Sys2Proof

namespace Sys2Proof.Machine

/-! ## Presenting what was read (R43) -/

theorem State.presentInteger_of_ge (s : State) {n : Nat} (h : 1024 ≤ n) : s.presentInteger n = s := by
  rw [State.presentInteger, wordOfInteger_ge h, State.presentRead_error]

theorem State.withFetchWord_of_ok (s : State) {nbits w : Nat} {cmd : CmdWord} (h : wordOfTableBits nbits w = .ok cmd) :
    s.withFetchWord nbits w = s.presentNext (command cmd) := by
  rw [State.withFetchWord, h, State.presentRead_ok]

theorem State.withFetchWord_of_error (s : State) {nbits w : Nat} {e : DecodeError}
    (h : wordOfTableBits nbits w = .error e) : s.withFetchWord nbits w = s := by
  rw [State.withFetchWord, h, State.presentRead_error]

/-- Settles O47: what the reading refuses presents nothing, and what it accepts is presented as the word it is. -/
theorem whatIsRefusedIsNeverPresented : Obligations.WhatIsRefusedIsNeverPresented := by
  unfold Obligations.WhatIsRefusedIsNeverPresented
  refine ⟨fun s n => s.presentInteger_of_ge, fun s nbits w h10 h16 => ?width, fun s nbits w hw => ?value,
    fun s nbits w hbits hw => ?accepted⟩
  case width =>
    have herror := wordOfTableBits_of_other_width (not_or.mpr ⟨h10, h16⟩) w
    exact ⟨herror, decodeTableWord_of_error herror, s.withFetchWord_of_error herror⟩
  case value =>
    obtain ⟨e, herror⟩ := wordOfTableBits_of_ge nbits hw
    exact ⟨decodeTableWord_of_error herror, s.withFetchWord_of_error herror⟩
  case accepted =>
    exact ⟨decodeTableWord_of_lt hbits hw,
      s.withFetchWord_of_ok ((wordOfTableBits_of_width hbits w).trans (wordOfInteger_lt hw))⟩

/-! ## A step on what was presented -/

theorem step_presentNext_command (s : State) (w : CmdWord) : step (s.presentNext (command w)) = exec (decode w) s :=
  step_of_pending_command (s.pending_presentNext (command w))

/-- Settles O4: a step on a pending word executes what it decodes to, and a table word is presented as the word it is
read as, or not at all. -/
theorem stepExecutesTheDecodedCommand : Obligations.StepExecutesTheDecodedCommand := by
  unfold Obligations.StepExecutesTheDecodedCommand
  refine ⟨fun s w rest => step_of_pending_command, fun s nbits w i h => ?accepted, fun s nbits w h => ?refused⟩
  case accepted =>
    obtain ⟨cmd, hok, rfl⟩ := decodeTableWord_eq_some h
    rw [s.withFetchWord_of_ok hok, step_presentNext_command]
  case refused =>
    obtain ⟨e, herror⟩ := decodeTableWord_eq_none h
    exact s.withFetchWord_of_error herror

/-- Settles O3: the state after reset by its definition, the first command by the step on a presented word. -/
theorem resetStateShowsEmptyChecksumAndAcceptsCommands : Obligations.ResetStateShowsEmptyChecksumAndAcceptsCommands := by
  unfold Obligations.ResetStateShowsEmptyChecksumAndAcceptsCommands
  exact ⟨State.reset_acc, State.reset_acc, State.reset_pending, step_presentNext_command State.reset⟩

end Sys2Proof.Machine
end

section
/-!
PROOFS. Runs: what any number of steps makes of the state, and what a run therefore does not depend on
(spec 10_state.md section 2; 20_memory.md section 5; 41_message_function.md section 1; 70_reset_and_hazards.md section 1).
-/

namespace Sys2Proof.Machine

/-! ## Every step, with something pending or not -/

theorem step_of_nothing_pending {s : State} (h : s.pending = []) : step s = .next s := by
  rw [step_of_no_reset (by rw [State.nextInput_nil h, idleInput]), State.nextInput_nil h, State.consumeInput_nil h,
    idleInput, decode_encode, exec_hold]

/-- Settles O5: the idle input is a `CRC.HOLD`. -/
theorem idleStepLeavesTheStateUnchanged : Obligations.IdleStepLeavesTheStateUnchanged := by
  unfold Obligations.IdleStepLeavesTheStateUnchanged
  exact fun s h => ⟨by rw [step_of_nothing_pending h, exec_hold], step_of_nothing_pending h⟩

theorem exec_pending {i : Instr} {s t : State} (h : exec i s = .next t) : t.pending = s.pending := by
  obtain ⟨-, rfl⟩ | ⟨d, -, rfl⟩ | ⟨-, rfl⟩ := exec_cases h <;> rfl

/-- An operation writes `acc` and nothing else. -/
theorem exec_frame {i : Instr} {s t : State} (h : exec i s = .next t) : t = s.writeAcc t.acc := by
  obtain ⟨-, rfl⟩ | ⟨d, -, rfl⟩ | ⟨-, rfl⟩ := exec_cases h <;> rfl

theorem step_pending {s t : State} (h : step s = .next t) : t.pending = s.pending.tail := by
  obtain ⟨-, rfl⟩ | ⟨-, hexec⟩ := step_cases h
  · rfl
  · exact exec_pending hexec

/-- Settles O11, by the inversion lemmas of `exec` and `step`. -/
theorem operationsChangeNothingButAcc : Obligations.OperationsChangeNothingButAcc := by
  unfold Obligations.OperationsChangeNothingButAcc
  refine ⟨fun i s t h => ⟨exec_pending h, exec_frame h⟩, fun s t h => ?hold, fun s t => step_pending⟩
  case hold =>
    obtain rfl : s = t := by simpa using h
    rfl

/-! ## The value the run is bound for -/

theorem destination_of_nothing_pending {s : State} (h : s.pending = []) : s.destination = s.acc := by
  simp [State.destination, h]

/-- The oldest input acts first, so its effect may be taken into the accumulator. -/
theorem destination_of_pending {s : State} {inp : HostInput} {rest : List HostInput} (h : s.pending = inp :: rest) :
    s.destination = State.destination { block := { acc := inputEffect s.acc inp }, pending := rest } := by
  simp [State.destination, h]

theorem step_preserves_destination {s t : State} (h : step s = .next t) : t.destination = s.destination := by
  cases hp : s.pending with
  | nil =>
    obtain rfl : s = t := by simpa [step_of_nothing_pending hp] using h
    rfl
  | cons inp rest =>
    rw [step_of_pending hp] at h
    obtain rfl := Host.Outcome.next.inj h
    exact (destination_of_pending hp).symm

/-- Settles O38: an idle step changes nothing, and another moves the oldest input's effect from the fold into `acc`. -/
theorem stepKeepsTheValueTheRunIsBoundFor : Obligations.StepKeepsTheValueTheRunIsBoundFor := by
  unfold Obligations.StepKeepsTheValueTheRunIsBoundFor
  exact fun v s t hv hstep => (step_preserves_destination hstep).trans hv

/-- Settles O40: with nothing pending the run is bound for what `acc` holds. -/
theorem resetIsBoundForTheEmptyChecksum : Obligations.ResetIsBoundForTheEmptyChecksum := by
  unfold Obligations.ResetIsBoundForTheEmptyChecksum
  have hdest : State.reset.destination = 0xFFFF#16 := by
    rw [destination_of_nothing_pending State.reset_pending, State.reset_acc]
  exact ⟨hdest, hdest⟩

/-- Settles O39: as many steps as inputs fold all their effects. -/
theorem runReachesTheValueItIsBoundFor : Obligations.RunReachesTheValueItIsBoundFor := by
  unfold Obligations.RunReachesTheValueItIsBoundFor
  exact fun s => runSteps_of_pending (List.append_nil s.pending).symm

/-! ## Any number of steps -/

theorem runSteps_of_nothing_pending (n : Nat) {s : State} (h : s.pending = []) : runSteps n s = .next s := by
  induction n with
  | zero => exact runSteps_zero s
  | succ n ih => rw [runSteps_succ (step_of_nothing_pending h), ih]

/-- `n` steps fold the effects of the first `n` inputs, or of all there are, and leave the others pending. -/
theorem runSteps_eq (n : Nat) (s : State) :
    runSteps n s =
      .next { block := { acc := (s.pending.take n).foldl inputEffect s.acc }, pending := s.pending.drop n } := by
  induction n generalizing s with
  | zero => rfl
  | succ n ih =>
    cases hp : s.pending with
    | nil =>
      rw [runSteps_of_nothing_pending _ hp, List.take_nil, List.drop_nil, List.foldl_nil, ← hp]
      rfl
    | cons inp rest =>
      rw [runSteps_succ (step_of_pending hp), ih]
      rfl

/-- Settles O37: the output after `n` steps is a fold over the first `n` inputs alone. -/
theorem outputReflectsExactlyTheInputsPresentedSoFar : Obligations.OutputReflectsExactlyTheInputsPresentedSoFar := by
  unfold Obligations.OutputReflectsExactlyTheInputsPresentedSoFar
  intro s s' n hacc htake
  refine ⟨_, _, runSteps_eq n s, runSteps_eq n s', ?_, rfl, rfl⟩
  change (s.pending.take n).foldl inputEffect s.acc = (s'.pending.take n).foldl inputEffect s'.acc
  rw [hacc, htake]

/-! ## What comes before a `CRC.INIT` or a reset -/

theorem inputEffect_eq_initAcc (a : Acc) {inp : HostInput} (h : inp.reset = true ∨ decode inp.cmd = .init) :
    inputEffect a inp = Config.initAcc := by
  unfold inputEffect
  split
  · rfl
  · next hreset => simp [h.resolve_left hreset]

/-- The accumulator an initialising input finds does not reach past it. -/
theorem foldl_inputEffect_append_cons_init (a a' : Acc) (before after : List HostInput) {inp : HostInput}
    (h : inp.reset = true ∨ decode inp.cmd = .init) :
    (before ++ inp :: after).foldl inputEffect a = (before ++ inp :: after).foldl inputEffect a' := by
  simp only [List.foldl_append, List.foldl_cons, inputEffect_eq_initAcc _ h]

/-- The first `n` inputs still contain what stands before position `n`. -/
theorem take_append_cons_of_length_lt {α : Type} {before : List α} {n : Nat} (h : before.length < n) (x : α)
    (after : List α) : ∃ rest, (before ++ x :: after).take n = before ++ x :: rest := by
  obtain ⟨k, rfl⟩ := Nat.exists_eq_add_of_lt h
  exact ⟨after.take k, by rw [Nat.add_assoc, List.take_length_add_append, List.take_succ_cons]⟩

/-- Settles O36: the first `n` inputs hold the initialising one, at which the two folds meet. -/
theorem nothingBeforeAnInitInfluencesWhatFollows : Obligations.NothingBeforeAnInitInfluencesWhatFollows := by
  unfold Obligations.NothingBeforeAnInitInfluencesWhatFollows
  intro s s' before inp after n hp hp' hn hinit
  obtain ⟨rest, htake⟩ := take_append_cons_of_length_lt hn inp after
  rw [runSteps_eq, runSteps_eq, hp', hp, htake, foldl_inputEffect_append_cons_init s.acc s'.acc before rest hinit]

end Sys2Proof.Machine
end

section
/-!
PROOFS. What a sequence of commands leaves in `acc`, and what the output shows on the way
(spec 41_message_function.md section 1; 70_reset_and_hazards.md sections 2 and 3).
-/

namespace Sys2Proof.Machine

/-! ## Inputs as operations -/

/-- With reset released, an input acts as the canonical word of the operation it decodes to. -/
theorem inputEffect_eq_command_encode (a : Acc) {inp : HostInput} (h : inp.reset = false) :
    inputEffect a inp = inputEffect a (command (encode (decode inp.cmd))) := by
  simp [inputEffect, h]

theorem foldl_inputEffect_eq_commandsOf (a : Acc) {inputs : List HostInput} (h : ∀ inp ∈ inputs, inp.reset = false) :
    inputs.foldl inputEffect a = (commandsOf (inputs.map fun inp => decode inp.cmd)).foldl inputEffect a := by
  induction inputs generalizing a with
  | nil => rfl
  | cons inp inputs ih =>
    obtain ⟨hinp, hinputs⟩ := List.forall_mem_cons.mp h
    rw [List.foldl_cons, inputEffect_eq_command_encode a hinp]
    exact ih _ hinputs

theorem foldl_inputEffect_map_command (a : Acc) (words : List CmdWord) :
    (words.map command).foldl inputEffect a = (commandsOf (words.map decode)).foldl inputEffect a := by
  rw [foldl_inputEffect_eq_commandsOf a (List.forall_mem_map.mpr fun w _ => reset_command w), List.map_map]
  rfl

@[simp] theorem commandsOf_append (ops ops' : List Instr) : commandsOf (ops ++ ops') = commandsOf ops ++ commandsOf ops' :=
  List.map_append

@[simp] theorem commandsOf_cons (i : Instr) (ops : List Instr) :
    commandsOf (i :: ops) = command (encode i) :: commandsOf ops := rfl

@[simp] theorem length_commandsOf (ops : List Instr) : (commandsOf ops).length = ops.length :=
  List.length_map _

@[simp] theorem inputEffect_command_hold (a : Acc) : inputEffect a (command (encode .hold)) = a := by
  simp [inputEffect]

/-! ## Any command sequence (R62) -/

theorem foldl_inputEffect_of_no_init (a : Acc) {ops : List Instr} (h : Instr.init ∉ ops) :
    (commandsOf ops).foldl inputEffect a = crc16From a (byteOperands ops) := by
  induction ops generalizing a with
  | nil => rfl
  | cons i ops ih =>
    obtain ⟨hne, hmem⟩ := not_or.mp (mt List.mem_cons.mpr h)
    cases i with
    | hold => simpa [byteOperands] using ih a hmem
    | byte d => simpa [byteOperands, crc16From] using ih (absorb a d) hmem
    | init => exact absurd rfl hne

theorem foldl_inputEffect_of_last_init (a : Acc) (before : List Instr) {after : List Instr} (h : Instr.init ∉ after) :
    (commandsOf (before ++ Instr.init :: after)).foldl inputEffect a = crc16 (byteOperands after) := by
  simp only [commandsOf_append, commandsOf_cons, List.foldl_append, List.foldl_cons, inputEffect_command_init]
  exact foldl_inputEffect_of_no_init Config.initAcc h

theorem runSteps_of_pending_words {s : State} {words : List CmdWord} {rest : List HostInput}
    (h : s.pending = words.map command ++ rest) :
    runSteps words.length s =
      .next { block := { acc := (commandsOf (words.map decode)).foldl inputEffect s.acc }, pending := rest } := by
  rw [← foldl_inputEffect_map_command, ← runSteps_of_pending h, List.length_map]

/-- Settles O31: the run folds the operations its words decode to, and the fold starts anew at the last `CRC.INIT`. -/
theorem anyCommandSequenceLeavesTheChecksumSinceTheLastInit :
    Obligations.AnyCommandSequenceLeavesTheChecksumSinceTheLastInit := by
  unfold Obligations.AnyCommandSequenceLeavesTheChecksumSinceTheLastInit
  refine fun s words rest h => ⟨fun before after hops hafter => ?_, fun hnone => ?_⟩
  · rw [runSteps_of_pending_words h, hops, foldl_inputEffect_of_last_init s.acc before hafter]
  · rw [runSteps_of_pending_words h, foldl_inputEffect_of_no_init s.acc hnone]

/-! ## `CRC.HOLD`s in a sequence (R51) -/

theorem foldl_inputEffect_filter_hold (a : Acc) (ops : List Instr) :
    (commandsOf (ops.filter fun i => i != .hold)).foldl inputEffect a = (commandsOf ops).foldl inputEffect a := by
  induction ops generalizing a with
  | nil => rfl
  | cons i ops ih => cases i <;> simp [ih]

/-- Settles O33: a fold that keeps the accumulator at every `CRC.HOLD` is the fold with the `CRC.HOLD`s dropped. -/
theorem holdsMayBeInsertedOrLeftOutAnywhere : Obligations.HoldsMayBeInsertedOrLeftOutAnywhere := by
  unfold Obligations.HoldsMayBeInsertedOrLeftOutAnywhere
  intro s s' words words' hacc hp hp' hfilter
  have hfold : (commandsOf (words'.map decode)).foldl inputEffect s'.acc =
      (commandsOf (words.map decode)).foldl inputEffect s.acc := by
    rw [← foldl_inputEffect_filter_hold, ← hfilter, foldl_inputEffect_filter_hold, hacc]
  refine ⟨_, runSteps_of_pending_words (rest := []) (by simpa using hp), ?_⟩
  rw [runSteps_of_pending_words (rest := []) (by simpa using hp'), hfold]

/-! ## Conforming use (R91, R93, R96) -/

theorem foldl_inputEffect_of_presents (a : Acc) {m : List Byte} {inputs : List HostInput} (h : Presents m inputs) :
    inputs.foldl inputEffect a = crc16 m := by
  obtain ⟨hreset, hops⟩ := h
  rw [foldl_inputEffect_eq_commandsOf a hreset, ← foldl_inputEffect_filter_hold, hops, foldl_inputEffect_message]

/-- A conforming presentation leaves the checksum, from every state. -/
theorem runSteps_of_presents {m : List Byte} {inputs rest : List HostInput} {s : State} (hm : Presents m inputs)
    (h : s.pending = inputs ++ rest) :
    runSteps inputs.length s = .next { block := { acc := crc16 m }, pending := rest } := by
  rw [runSteps_of_pending h, foldl_inputEffect_of_presents s.acc hm]

theorem presents_append_holds {m : List Byte} {inputs : List HostInput} {holds : List CmdWord} (hm : Presents m inputs)
    (hholds : ∀ w ∈ holds, decode w = .hold) : Presents m (inputs ++ holds.map command) := by
  obtain ⟨hreset, hops⟩ := hm
  have hnone : ((holds.map command).map fun inp => decode inp.cmd).filter (fun i => i != .hold) = [] := by
    simpa [List.filter_eq_nil_iff] using hholds
  refine ⟨fun inp hinp => ?_, by rw [List.map_append, List.filter_append, hops, hnone, List.append_nil]⟩
  obtain hinp | hinp := List.mem_append.mp hinp
  · exact hreset inp hinp
  · obtain ⟨w, -, rfl⟩ := List.mem_map.mp hinp
    exact reset_command w

/-- Settles O32: the presentation alone, and the presentation with the `CRC.HOLD`s after it, both present the message. -/
theorem conformingUseYieldsTheChecksum : Obligations.ConformingUseYieldsTheChecksum := by
  unfold Obligations.ConformingUseYieldsTheChecksum
  intro s m inputs rest holds hm hholds h
  have hlater := runSteps_of_presents (presents_append_holds hm hholds) h
  rw [List.length_append, List.length_map] at hlater
  exact ⟨_, runSteps_of_presents hm (h.trans (List.append_assoc _ _ _)), rfl, _, hlater, rfl, rfl⟩

/-! ## Continuation (R64) and two messages in succession -/

theorem crc16From_append (a : Acc) (m n : List Byte) : crc16From a (m ++ n) = crc16From (crc16From a m) n := by
  simp only [crc16From_eq_foldl, List.foldl_append]

/-- Presenting an input, then looking on, is looking on from the state with the input's effect. -/
theorem observe_present (s : State) (inp : HostInput) (actions : List HostAction) :
    observe (.present inp :: actions) s = observe actions (s.writeAcc (inputEffect s.acc inp)) := by
  rw [observe, step_of_pending (s.pending_presentNext inp)]
  rfl

theorem observe_bytes_sampled (s : State) (m : List Byte) :
    observe (m.flatMap fun b => [.present (command (encode (.byte b))), .sample]) s =
      (List.range m.length).map (fun k => crc16From s.acc (m.take (k + 1))) ++ [crc16From s.acc m] := by
  induction m generalizing s with
  | nil => rfl
  | cons b m ih =>
    rw [List.flatMap_cons, List.cons_append, observe_present, inputEffect_command_byte, List.cons_append,
      observe_sample, List.nil_append, ih, List.length_cons, List.range_succ_eq_map, List.map_cons, List.map_map]
    rfl

/-- Settles O34: each sample shows the fold of the bytes so far, which the next byte continues. -/
theorem samplesDuringAMessageAreTheChecksumsOfItsPrefixes :
    Obligations.SamplesDuringAMessageAreTheChecksumsOfItsPrefixes := by
  unfold Obligations.SamplesDuringAMessageAreTheChecksumsOfItsPrefixes
  refine ⟨crc16From_append, fun s m => ?_⟩
  rw [observe_present, inputEffect_command_init, observe_bytes_sampled, State.acc_writeAcc]
  rfl

/-- Settles O35: without the second `CRC.INIT` the bytes stand after the first, and with it only the second message's do. -/
theorem omittedInitContinuesThePreviousMessage : Obligations.OmittedInitContinuesThePreviousMessage := by
  unfold Obligations.OmittedInitContinuesThePreviousMessage
  refine fun s m n rest => ⟨fun h => ?omitted, fun h => ?present⟩
  case omitted =>
    rw [List.cons_append, ← List.map_append] at h
    rw [← runSteps_of_pending_message h, List.length_append]
    congr 1
    omega
  case present =>
    have hrun := runSteps_of_pending h
    rw [commandsOf_append, List.foldl_append, foldl_inputEffect_message] at hrun
    rw [← hrun]
    congr 1
    simp
    omega

end Sys2Proof.Machine
end

section
/-!
PROOFS. Laws of the datapath: the bits of an iteration and the wired shift register, bijectivity, linearity and the byte
form (spec 40_accumulator_ops.md section 3).
-/

namespace Sys2Proof.Machine

/-! ## The iteration bit by bit -/

theorem getLsbD_step1 (a : Acc) (i : Nat) :
    (step1 a).getLsbD i = (a.getLsbD (i + 1) ^^ (a.getLsbD 0 && (0xA001#16).getLsbD i)) := by
  change _ = (_ ^^ (lowBit a && _))
  cases h : lowBit a with
  | true => simp [step1_of_lowBit h, Nat.add_comm]
  | false => simp [step1_of_not_lowBit h, Nat.add_comm]

/-- The tap constant has its three bits at 15, 13 and 0. -/
theorem getLsbD_poly {i : Nat} (hi : i < 16) : (0xA001#16).getLsbD i = decide (i = 15 ∨ i = 13 ∨ i = 0) := by
  revert i; decide

theorem getLsbD_step1_of_no_tap (a : Acc) {i : Nat} (hi : i < 16) (htap : ¬ (i = 15 ∨ i = 13 ∨ i = 0)) :
    (step1 a).getLsbD i = a.getLsbD (i + 1) := by
  rw [getLsbD_step1, getLsbD_poly hi, decide_eq_false htap, Bool.and_false, Bool.xor_false]

theorem getLsbD_step1_eq_wiredBit (a : Acc) {i : Nat} (hi : i < 16) : (step1 a).getLsbD i = wiredBit a i := by
  unfold wiredBit
  split
  · rw [getLsbD_step1]; simp
  · rw [getLsbD_step1]; simp
  · rw [getLsbD_step1]; simp
  · next h15 h13 h0 => exact getLsbD_step1_of_no_tap a hi (not_or.mpr ⟨h15, not_or.mpr ⟨h13, h0⟩⟩)

theorem wiredStep_eq_step1 (a : Acc) : wiredStep a = step1 a := by
  refine BitVec.eq_of_getLsbD_eq fun i hi => ?_
  rw [wiredStep, BitVec.getLsbD_ofFnLE, dif_pos hi, getLsbD_step1_eq_wiredBit a hi]

/-- Settles O24: the taps stand where the constant of the iteration has its bits. -/
theorem wiredShiftRegisterEqualsTheIteration : Obligations.WiredShiftRegisterEqualsTheIteration := by
  unfold Obligations.WiredShiftRegisterEqualsTheIteration
  refine ⟨fun a => ?bits, wiredStep_eq_step1, fun a d => ?byte⟩
  case bits =>
    have htable {i : Nat} (hi : i < 16) := getLsbD_step1_eq_wiredBit a hi
    exact ⟨htable (i := 15) (by decide), htable (i := 14) (by decide), htable (i := 13) (by decide),
      fun i h1 h12 => getLsbD_step1_of_no_tap a (by omega) (by omega), htable (i := 0) (by decide)⟩
  case byte => rw [absorb_eq_iterate, funext wiredStep_eq_step1]

/-! ## Bijectivity -/

theorem step1_bijective : Function.Bijective step1 := Finite.injective_iff_bijective.mp step1_injective

theorem absorb_left_bijective (d : Byte) : Function.Bijective fun a => absorb a d :=
  Finite.injective_iff_bijective.mp (absorb_left_injective d)

/-- Bit 15 of the result says whether the constant was XORed in, so XORing it in again gives the bits that were shifted. -/
theorem step1_eq_iff (a n : Acc) :
    step1 a = n ↔ a.getLsbD 0 = n.getLsbD 15 ∧
      ∀ i, i < 15 → a.getLsbD (i + 1) = (n ^^^ (if n.getLsbD 15 then 0xA001#16 else 0x0000#16)).getLsbD i := by
  have hmask (i : Nat) : (n ^^^ (if n.getLsbD 15 then 0xA001#16 else 0x0000#16)).getLsbD i =
      (n.getLsbD i ^^ (n.getLsbD 15 && (0xA001#16).getLsbD i)) := by
    cases n.getLsbD 15 <;> simp
  simp only [hmask]
  constructor
  · rintro rfl
    have htop : (step1 a).getLsbD 15 = a.getLsbD 0 := getLsbD_step1_top a
    exact ⟨htop.symm, fun i _ => by rw [htop, getLsbD_step1, Bool.xor_assoc, Bool.xor_self, Bool.xor_false]⟩
  · rintro ⟨hlow, hbits⟩
    refine BitVec.eq_of_getLsbD_eq fun i hi => ?_
    obtain hlt | rfl : i < 15 ∨ i = 15 := by omega
    · rw [getLsbD_step1, hbits i hlt, hlow, Bool.xor_assoc, Bool.xor_self, Bool.xor_false]
    · exact (getLsbD_step1_top a).trans hlow

/-- Settles O25: injectivity on a finite type is bijectivity, and the inverse is read off bit by bit. -/
theorem iterationAndAbsorbAreBijections : Obligations.IterationAndAbsorbAreBijections := by
  unfold Obligations.IterationAndAbsorbAreBijections
  exact ⟨step1_bijective, step1_eq_iff, absorb_left_bijective, absorb_right_injective⟩

/-! ## Linearity over XOR -/

theorem step1_xor (a b : Acc) : step1 (a ^^^ b) = step1 a ^^^ step1 b := by
  refine BitVec.eq_of_getLsbD_eq fun i _ => ?_
  simp only [getLsbD_step1, BitVec.getLsbD_xor, Bool.and_xor_distrib_right, Bool.xor_assoc, Bool.xor_left_comm]

theorem iterate_step1_xor (n : Nat) (a b : Acc) : step1^[n] (a ^^^ b) = step1^[n] a ^^^ step1^[n] b := by
  induction n generalizing a b with
  | zero => rfl
  | succ n ih => simp only [Function.iterate_succ_apply, step1_xor, ih]

theorem absorb_eq_xor (a : Acc) (d : Byte) : absorb a d = step1^[8] a ^^^ step1^[8] (zext16 d) :=
  iterate_step1_xor 8 a (zext16 d)

theorem zext16_xor (d e : Byte) : zext16 (d ^^^ e) = zext16 d ^^^ zext16 e := BitVec.setWidth_xor

theorem byteTerm_eq_iterate (x : Byte) : byteTerm x = step1^[8] (zext16 x) := by
  rw [byteTerm, absorb_eq_iterate, BitVec.zero_xor]

theorem byteTerm_xor (x y : Byte) : byteTerm (x ^^^ y) = byteTerm x ^^^ byteTerm y := by
  simp only [byteTerm_eq_iterate, zext16_xor, iterate_step1_xor]

/-! ## The byte form -/

/-- Where the low `n` bits are clear, none of `n` iterations XORs the constant in. -/
theorem iterate_step1_of_low_bits_clear {n : Nat} {a : Acc} (h : ∀ i < n, a.getLsbD i = false) :
    step1^[n] a = a >>> n := by
  induction n generalizing a with
  | zero => rfl
  | succ n ih =>
    rw [Function.iterate_succ_apply, step1_of_not_lowBit (h 0 n.succ_pos), ih, ← BitVec.shiftRight_add, Nat.add_comm]
    intro i hi
    rw [BitVec.getLsbD_ushiftRight]
    exact h _ (by omega)

theorem eq_highPart_xor_zext16_lowByte (a : Acc) : a = (a >>> 8) <<< 8 ^^^ zext16 (lowByte a) := by
  refine BitVec.eq_of_getLsbD_eq fun i hi => ?_
  rw [BitVec.getLsbD_xor, getLsbD_zext16]
  by_cases hlow : i < 8
  · simp [lowByte, hlow]
  · simp [lowByte, hlow, hi, show 8 + (i - 8) = i by omega]

theorem iterate_step1_highPart (a : Acc) : step1^[8] ((a >>> 8) <<< 8) = a >>> 8 := by
  rw [iterate_step1_of_low_bits_clear fun i hi => by simp [hi]]
  refine BitVec.eq_of_getLsbD_eq fun i _ => ?_
  by_cases hi : 8 + i < 16
  · simp [hi]
  · simp [hi, BitVec.getLsbD_of_ge a (8 + i) (by omega)]

/-- One byte absorbed: the high byte moves down, and the low byte with the operand selects the term XORed in (R57). -/
theorem absorb_eq_byteForm (a : Acc) (d : Byte) : absorb a d = (a >>> 8) ^^^ byteTerm (lowByte a ^^^ d) :=
  calc absorb a d
      = step1^[8] ((a >>> 8) <<< 8 ^^^ zext16 (lowByte a)) ^^^ step1^[8] (zext16 d) := by
        rw [← eq_highPart_xor_zext16_lowByte, absorb_eq_xor]
    _ = (a >>> 8) ^^^ (step1^[8] (zext16 (lowByte a)) ^^^ step1^[8] (zext16 d)) := by
        rw [iterate_step1_xor, iterate_step1_highPart, BitVec.xor_assoc]
    _ = (a >>> 8) ^^^ byteTerm (lowByte a ^^^ d) := by
        rw [byteTerm_eq_iterate, zext16_xor, iterate_step1_xor]

theorem shiftRight_eight_eq_zext16_highByte (a : Acc) : a >>> 8 = zext16 (highByte a) := by
  refine BitVec.eq_of_getLsbD_eq fun i hi => ?_
  rw [BitVec.getLsbD_ushiftRight, getLsbD_zext16, highByte, BitVec.getLsbD_extractLsb']
  by_cases hlow : i < 8
  · simp [hlow]
  · simp [hlow, BitVec.getLsbD_of_ge a (8 + i) (by omega)]

@[simp] theorem byteTerm_zero : byteTerm 0#8 = 0#16 := by decide

/-- A byte equal to the low byte selects no term (R52, corner case (c)). -/
theorem absorb_joinBytes_low (h l : Byte) : absorb (joinBytes h l) l = zext16 h := by
  rw [absorb_eq_byteForm, shiftRight_eight_eq_zext16_highByte, highByte_joinBytes, lowByte_joinBytes, BitVec.xor_self,
    byteTerm_zero, BitVec.xor_zero]

/-- Settles O27: linearity bit by bit, the byte form by splitting the accumulator into its two bytes. -/
theorem iterationIsLinearAndAbsorbHasByteForm : Obligations.IterationIsLinearAndAbsorbHasByteForm := by
  unfold Obligations.IterationIsLinearAndAbsorbHasByteForm
  exact ⟨by decide, step1_xor, iterate_step1_xor 8, absorb_eq_xor, absorb_eq_byteForm, absorb_joinBytes_low, by decide⟩

/-! ## The high bytes of the terms -/

/-- A term with a zero high byte is what absorbing `x` makes of `{l, x}`, and it is what it makes of zero: so `x` is zero. -/
theorem highByte_byteTerm_eq_zero_iff (x : Byte) : highByte (byteTerm x) = 0#8 ↔ x = 0#8 := by
  refine ⟨fun h => ?_, fun h => by rw [h]; decide⟩
  have hterm : byteTerm x = zext16 (lowByte (byteTerm x)) := by
    conv_lhs => rw [← joinBytes_highByte_lowByte (byteTerm x), h]
    exact (eq_joinBytes_iff.mpr ⟨lowByte_zext16 _, highByte_zext16 _⟩).symm
  have habsorb : absorb 0#16 x = absorb (joinBytes (lowByte (byteTerm x)) x) x := by
    rw [absorb_joinBytes_low, ← hterm, byteTerm]
  have hzero := absorb_left_injective x habsorb
  exact (eq_joinBytes_iff.mp hzero).1.symm

/-- By linearity two terms differ in the high byte as the term of their XOR does from zero. -/
theorem highByte_byteTerm_injective : Function.Injective fun x => highByte (byteTerm x) := fun x y h => by
  rw [← BitVec.xor_eq_zero_iff, ← highByte_byteTerm_eq_zero_iff, byteTerm_xor, highByte_xor]
  exact BitVec.xor_eq_zero_iff.mpr h

/-- Settles O28: an injective map of bytes is a bijection. -/
theorem highBytesOfByteTermsAreAllDifferent : Obligations.HighBytesOfByteTermsAreAllDifferent := by
  unfold Obligations.HighBytesOfByteTermsAreAllDifferent
  exact ⟨Finite.injective_iff_bijective.mp highByte_byteTerm_injective, highByte_byteTerm_eq_zero_iff⟩

/-! ## The fixed points of a zero byte -/

theorem lowByte_absorb (a : Acc) (d : Byte) :
    lowByte (absorb a d) = highByte a ^^^ lowByte (byteTerm (lowByte a ^^^ d)) := by
  rw [absorb_eq_byteForm, shiftRight_eight_eq_zext16_highByte, lowByte_xor, lowByte_zext16]

theorem highByte_absorb (a : Acc) (d : Byte) : highByte (absorb a d) = highByte (byteTerm (lowByte a ^^^ d)) := by
  rw [absorb_eq_byteForm, shiftRight_eight_eq_zext16_highByte, highByte_xor, highByte_zext16, BitVec.zero_xor]

/-- Of the 256 bytes only two are the XOR of the two bytes of their own term. -/
theorem highByte_xor_lowByte_byteTerm_eq_self_iff (x : Byte) :
    highByte (byteTerm x) ^^^ lowByte (byteTerm x) = x ↔ x = 0x00#8 ∨ x = 0x01#8 := by
  revert x; decide

/-- A fixed point has the high byte of its low byte's term, so its low byte is the XOR of the two bytes of that term. -/
theorem absorb_zero_eq_self_iff (a : Acc) : absorb a 0x00#8 = a ↔ a = 0x0000#16 ∨ a = 0xC001#16 := by
  refine ⟨fun h => ?_, fun h => ?_⟩
  · have hhigh := highByte_absorb a 0x00#8
    have hlow := lowByte_absorb a 0x00#8
    rw [h, BitVec.xor_zero] at hhigh hlow
    rw [hhigh] at hlow
    rw [← joinBytes_highByte_lowByte a, hhigh]
    obtain h0 | h1 := (highByte_xor_lowByte_byteTerm_eq_self_iff (lowByte a)).mp hlow.symm
    · exact .inl (by rw [h0]; decide)
    · exact .inr (by rw [h1]; decide)
  · obtain rfl | rfl := h <;> decide

/-- Settles O26, through the low byte of a fixed point. -/
theorem zeroByteFixesExactlyTwoAccumulators : Obligations.ZeroByteFixesExactlyTwoAccumulators := by
  unfold Obligations.ZeroByteFixesExactlyTwoAccumulators
  exact ⟨by decide, by decide, absorb_zero_eq_self_iff⟩

end Sys2Proof.Machine
end

section
/-!
PROOFS. Wider accumulators: one of unbounded width and one of every width from 16 bits up agree with the register on every
message (spec 10_state.md section 1; 92_eei_decisions.md D3).
-/

namespace Sys2Proof.Machine

/-! ## Unbounded width (R13) -/

theorem lowBit_eq_decide (a : Acc) : lowBit a = decide (a.toNat % 2 = 1) := by
  rw [lowBit, BitVec.getLsbD, Nat.testBit_zero]

theorem wideStep_toNat (a : Acc) : wideStep a.toNat = (step1 a).toNat := by
  have hlow := lowBit_eq_decide a
  by_cases hodd : a.toNat % 2 = 1
  · rw [step1_of_lowBit (by simp [hlow, hodd])]
    simp [wideStep, hodd, Nat.shiftRight_one]
  · rw [step1_of_not_lowBit (by simp [hlow, hodd])]
    simp [wideStep, hodd, Nat.shiftRight_one]

theorem wideAbsorb_toNat (a : Acc) (d : Byte) : wideAbsorb a.toNat d = (absorb a d).toNat := by
  have hsemiconj : Function.Semiconj BitVec.toNat step1 wideStep := fun a => (wideStep_toNat a).symm
  have hstart : a.toNat ^^^ d.toNat = (a ^^^ zext16 d).toNat := by
    rw [BitVec.toNat_xor, zext16, BitVec.toNat_setWidth_of_le (by decide)]
  rw [wideAbsorb, hstart, absorb_eq_iterate]
  exact ((hsemiconj.iterate_right 8).eq _).symm

/-- A number below 2^16 is the value of a register, and so is what one byte makes of it. -/
theorem wideAbsorb_lt {n : Nat} (d : Byte) (h : n < 2 ^ 16) : wideAbsorb n d < 2 ^ 16 := by
  rw [← BitVec.toNat_ofNatLT n h, wideAbsorb_toNat]
  exact BitVec.isLt _

theorem wideCrcFrom_toNat (a : Acc) (m : List Byte) : wideCrcFrom a.toNat m = (crc16From a m).toNat := by
  induction m generalizing a with
  | nil => rfl
  | cons b m ih =>
    change wideCrcFrom (wideAbsorb a.toNat b) m = _
    rw [wideAbsorb_toNat]
    exact ih (absorb a b)

/-- Settles O29: below 2^16 the unbounded iteration is the register's, so both fold the message alike, and the run leaves
the register's fold. -/
theorem wideSoftwareAccumulatorAgreesWithTheRegister : Obligations.WideSoftwareAccumulatorAgreesWithTheRegister := by
  unfold Obligations.WideSoftwareAccumulatorAgreesWithTheRegister
  exact ⟨fun n d => wideAbsorb_lt d, wideCrcFrom_toNat, fun s m rest h =>
    ⟨_, runSteps_of_pending_message h, rfl, (wideCrcFrom_toNat Config.initAcc m).symm⟩⟩

/-! ## Every width from 16 bits up -/

section
variable {W : Nat} {shift : BitVec W → BitVec W} (hW : 16 ≤ W)
  (hshift : ∀ a : Acc, shift (a.setWidth W) = (a >>> 1).setWidth W)
include hW hshift

/-- A shift that keeps a 16-bit value below zeros makes the whole iteration do so. -/
theorem iterationOfWidth_setWidth (a : Acc) : iterationOfWidth shift (a.setWidth W) = (step1 a).setWidth W := by
  have hlow : (a.setWidth W).getLsbD 0 = lowBit a := by
    rw [BitVec.getLsbD_setWidth, decide_eq_true (by omega), Bool.true_and, lowBit]
  have hpoly : BitVec.ofNat W 0xA001 = (0xA001#16).setWidth W :=
    (BitVec.setWidth_ofNat_of_le_of_lt hW (by decide)).symm
  rw [iterationOfWidth, hlow, hshift]
  cases h : lowBit a with
  | true => rw [step1_of_lowBit h, if_pos rfl, hpoly, BitVec.setWidth_xor]
  | false => rw [step1_of_not_lowBit h, if_neg Bool.false_ne_true]

theorem crcOfWidth_setWidth (a : Acc) (m : List Byte) :
    crcOfWidth shift (a.setWidth W) m = (crc16From a m).setWidth W := by
  induction m generalizing a with
  | nil => rfl
  | cons b m ih =>
    have hsemiconj : Function.Semiconj (BitVec.setWidth W) step1 (iterationOfWidth shift) :=
      fun a => (iterationOfWidth_setWidth hW hshift a).symm
    have hstart : a.setWidth W ^^^ b.setWidth W = (a ^^^ zext16 b).setWidth W := by
      rw [BitVec.setWidth_xor, zext16, BitVec.setWidth_setWidth (by omega)]
    rw [crcOfWidth, hstart, ← (hsemiconj.iterate_right 8).eq, ih, crc16From, absorb_eq_iterate]

end

theorem shiftRight_setWidth {W : Nat} (hW : 16 ≤ W) (a : Acc) : a.setWidth W >>> 1 = (a >>> 1).setWidth W := by
  apply BitVec.eq_of_toNat_eq
  rw [BitVec.toNat_ushiftRight, BitVec.toNat_setWidth_of_le hW, BitVec.toNat_setWidth_of_le hW, BitVec.toNat_ushiftRight]

/-- Above 16 bits the top bit of a 16-bit value is 0, and the arithmetic shift is the logical one. -/
theorem sshiftRight_setWidth {W : Nat} (hW : 17 ≤ W) (a : Acc) :
    (a.setWidth W).sshiftRight 1 = (a >>> 1).setWidth W := by
  have htop : (a.setWidth W).msb = false := by
    rw [BitVec.msb_eq_getLsbD_last, BitVec.getLsbD_setWidth, BitVec.getLsbD_of_ge a _ (by omega), Bool.and_false]
  rw [BitVec.sshiftRight_eq_of_msb_false htop, shiftRight_setWidth (by omega)]

/-- Settles O48: either shift keeps a 16-bit value below zeros at its widths, and the message is folded through it. -/
theorem accumulatorOfEveryWidthAgreesWithTheRegister : Obligations.AccumulatorOfEveryWidthAgreesWithTheRegister := by
  unfold Obligations.AccumulatorOfEveryWidthAgreesWithTheRegister
  refine ⟨fun W a m hW => ?logical, fun W a m hW => ?arithmetic⟩
  case logical => exact crcOfWidth_setWidth hW (shiftRight_setWidth hW) a m
  case arithmetic => exact crcOfWidth_setWidth (by omega) (sshiftRight_setWidth hW) a m

end Sys2Proof.Machine
end

section
/-!
PROOFS. What a checksum detects: one changed byte, two exchanged bytes, a changed frame, and the zero residue
(spec 41_message_function.md sections 2 and 3).
-/

namespace Sys2Proof.Machine

/-! ## One changed byte -/

theorem crc16From_left_injective (m : List Byte) : Function.Injective fun a => crc16From a m := by
  induction m with
  | nil => exact Function.injective_id
  | cons b m ih => exact ih.comp (absorb_left_injective b)

/-- The changed byte makes two accumulators different, and the bytes after it keep them different. -/
theorem crc16_ne_of_one_byte_changed (pre post : List Byte) {b b' : Byte} (hne : b ≠ b') :
    crc16 (pre ++ b :: post) ≠ crc16 (pre ++ b' :: post) := by
  simp only [crc16, crc16From_append]
  exact (crc16From_left_injective post).ne ((absorb_right_injective _).ne hne)

/-- Settles O41: each presentation leaves the checksum of its message, and the two checksums differ. -/
theorem oneChangedByteAlwaysChangesTheChecksum : Obligations.OneChangedByteAlwaysChangesTheChecksum := by
  unfold Obligations.OneChangedByteAlwaysChangesTheChecksum
  intro pre post b b' hne
  have hcrc := crc16_ne_of_one_byte_changed pre post hne
  refine ⟨hcrc, fun s s' inputs inputs' hm hm' hp hp' => ?_⟩
  exact ⟨_, _, runSteps_of_presents hm (hp.trans (List.append_nil _).symm),
    runSteps_of_presents hm' (hp'.trans (List.append_nil _).symm), hcrc⟩

/-! ## Injectivity on short messages -/

/-- The high byte of the result names the term that was XORed in, and the low byte then names the old high byte. -/
theorem highByte_and_lowByte_xor_eq_of_absorb_eq {a a' : Acc} {d d' : Byte} (h : absorb a d = absorb a' d') :
    highByte a = highByte a' ∧ lowByte a ^^^ d = lowByte a' ^^^ d' := by
  have hterm : lowByte a ^^^ d = lowByte a' ^^^ d' :=
    highByte_byteTerm_injective (by simpa only [highByte_absorb] using congrArg highByte h)
  have hlow := congrArg lowByte h
  rw [lowByte_absorb, lowByte_absorb, hterm] at hlow
  exact ⟨(BitVec.xor_left_inj _).mp hlow, hterm⟩

theorem crc16_one_byte_injective {a b : Byte} (h : crc16 [a] = crc16 [b]) : a = b :=
  absorb_right_injective Config.initAcc h

theorem crc16_two_bytes_injective {a b c d : Byte} (h : crc16 [a, b] = crc16 [c, d]) : a = c ∧ b = d := by
  obtain ⟨hhigh, -⟩ := highByte_and_lowByte_xor_eq_of_absorb_eq (show absorb (absorb _ a) b = absorb (absorb _ c) d from h)
  rw [highByte_absorb, highByte_absorb] at hhigh
  obtain rfl : a = c := (BitVec.xor_right_inj _).mp (highByte_byteTerm_injective hhigh)
  exact ⟨rfl, absorb_right_injective _ h⟩

/-- Settles O42: injectivity by the high bytes of the terms; `00 00 00` and `01 C1 C0` have the same checksum. -/
theorem checksumIsInjectiveUpToTwoBytesOnly : Obligations.ChecksumIsInjectiveUpToTwoBytesOnly := by
  unfold Obligations.ChecksumIsInjectiveUpToTwoBytesOnly
  refine ⟨fun a b => crc16_one_byte_injective, fun a b c d => crc16_two_bytes_injective,
    ⟨[0x00#8, 0x00#8, 0x00#8], [0x01#8, 0xC1#8, 0xC0#8], rfl, rfl, by decide, by decide +kernel⟩, by decide +kernel⟩

/-! ## Frames (R72) -/

theorem Frame.wire_ofData (f : Frame) : f.ofData.wire = crc16 f.fed := joinBytes_highByte_lowByte _

theorem Frame.wire_eq_iff (f g : Frame) : f.wire = g.wire ↔ f.crcLow = g.crcLow ∧ f.crcHigh = g.crcHigh := by
  rw [Frame.wire, Frame.wire, eq_joinBytes_iff, lowByte_joinBytes, highByte_joinBytes]

theorem Frame.not_valid_of_crc_changed {f g : Frame} (hf : f.valid = true) (hfed : g.fed = f.fed)
    (hcrc : g.crcLow ≠ f.crcLow ∨ g.crcHigh ≠ f.crcHigh) : g.valid = false := by
  rw [Frame.not_valid_iff, hfed, (Frame.valid_iff f).mp hf, ne_eq, Frame.wire_eq_iff]
  rintro ⟨hlow, hhigh⟩
  exact hcrc.elim (absurd hlow.symm) (absurd hhigh.symm)

theorem Frame.not_valid_of_byte_changed {f g : Frame} {pre post : List Byte} {b b' : Byte} (hf : f.valid = true)
    (hwire : g.wire = f.wire) (hfed : f.fed = pre ++ b :: post) (hfed' : g.fed = pre ++ b' :: post) (hne : b ≠ b') :
    g.valid = false := by
  rw [Frame.not_valid_iff, hwire, ← (Frame.valid_iff f).mp hf, hfed, hfed']
  exact crc16_ne_of_one_byte_changed pre post hne.symm

/-- Settles O45: validity compares the checksum with the wire value, and a changed byte changes exactly one of the two. -/
theorem frameRoundTripAcceptsAndRejects : Obligations.FrameRoundTripAcceptsAndRejects := by
  unfold Obligations.FrameRoundTripAcceptsAndRejects
  exact ⟨fun f => ⟨f.ofData.valid_iff.mpr f.wire_ofData.symm, rfl, rfl⟩, fun f g => Frame.not_valid_of_crc_changed,
    fun f g pre post b b' => Frame.not_valid_of_byte_changed, by decide +kernel, by decide +kernel⟩

/-! ## The residue (R73) -/

theorem absorb_zext16_self (h : Byte) : absorb (zext16 h) h = 0#16 := by
  rw [eq_joinBytes_iff.mpr ⟨lowByte_zext16 h, highByte_zext16 h⟩, absorb_joinBytes_low]
  rfl

/-- Two bytes leave zero exactly when they are the bytes of the accumulator, low byte first: `{h, l}` does leave zero, and
`absorb` keeps every other accumulator apart from it. -/
theorem absorb_absorb_eq_zero_iff (c : Acc) (l h : Byte) : absorb (absorb c l) h = 0#16 ↔ c = joinBytes h l := by
  rw [← absorb_zext16_self h, ← absorb_joinBytes_low h l]
  exact (absorb_left_injective h).eq_iff.trans (absorb_left_injective l).eq_iff

theorem crc16_append_two_bytes_eq_zero_iff (m : List Byte) (l h : Byte) :
    crc16 (m ++ [l, h]) = 0#16 ↔ crc16 m = joinBytes h l := by
  rw [crc16, crc16From_append]
  exact absorb_absorb_eq_zero_iff (crc16 m) l h

theorem Frame.residue_eq_zero_iff (f : Frame) : crc16 f.bytes = 0#16 ↔ f.valid = true :=
  (crc16_append_two_bytes_eq_zero_iff f.fed f.crcLow f.crcHigh).trans f.valid_iff.symm

/-- Settles O46: two bytes leave zero exactly when they are those of the checksum, which is validity of a frame. -/
theorem zeroResidueIsEquivalentToAValidFrame : Obligations.ZeroResidueIsEquivalentToAValidFrame := by
  unfold Obligations.ZeroResidueIsEquivalentToAValidFrame
  refine ⟨fun m => ?own, Frame.residue_eq_zero_iff, fun f s rest h => ?machine, by decide +kernel,
    by decide +kernel⟩
  case own => exact (crc16_append_two_bytes_eq_zero_iff m _ _).mpr (joinBytes_highByte_lowByte _).symm
  case machine => exact ⟨_, runSteps_of_pending_message h, f.residue_eq_zero_iff⟩

end Sys2Proof.Machine
end

section
/-!
PROOFS. The assembler reads what the spec writes: each operation's line, with or without a comment, and a decimal operand
(spec 30_encoding.md R44, R46; how text is cut is log entry 7).
-/

namespace Sys2Proof.Machine

/-! ## Cutting a line -/

/-- A character that cuts nothing: no blank, no comma, no semicolon. -/
def isPlain (c : Char) : Bool := !isBlank c && c != ',' && c != ';'

theorem isPlain_iff {c : Char} : isPlain c = true ↔ isBlank c = false ∧ c ≠ ',' ∧ c ≠ ';' := by
  simp [isPlain, and_assoc]

theorem stripComment_append_comment {line : List Char} (h : ';' ∉ line) (comment : List Char) :
    stripComment (line ++ ';' :: comment) = line := by
  rw [stripComment, List.takeWhile_append_of_pos, List.takeWhile_cons_of_neg (by decide), List.append_nil]
  intro c hc
  exact bne_iff_ne.mpr fun heq => h (heq ▸ hc)

theorem stripComment_of_not_mem {line : List Char} (h : ';' ∉ line) : stripComment line = line := by
  refine List.takeWhile_eq_self_iff.mpr fun c hc => ?_
  exact bne_iff_ne.mpr fun heq => h (heq ▸ hc)

/-- A comment after a line changes nothing of what the line assembles to. -/
theorem assembleLine_append_comment {line : List Char} (h : ';' ∉ line) (comment : List Char) :
    assembleLine (line ++ ';' :: comment) = assembleLine line := by
  rw [assembleLine, assembleLine, parseLine, parseLine, stripComment_append_comment h, stripComment_of_not_mem h]

theorem dropWhile_of_head {p : Char → Bool} {cs : List Char} (h : ∀ c ∈ cs.head?, p c = false) :
    cs.dropWhile p = cs := by
  cases cs with
  | nil => rfl
  | cons c cs => exact List.dropWhile_cons_of_neg (by simpa using h c)

theorem trimBlanks_of_ends {cs : List Char} (hhead : ∀ c ∈ cs.head?, isBlank c = false)
    (hlast : ∀ c ∈ cs.getLast?, isBlank c = false) : trimBlanks cs = cs := by
  rw [← List.head?_reverse] at hlast
  rw [trimBlanks, dropWhile_of_head hhead, dropWhile_of_head hlast, List.reverse_reverse]

@[simp] theorem trimBlanks_space_cons (cs : List Char) : trimBlanks (' ' :: cs) = trimBlanks cs := rfl

theorem splitCommas_of_not_mem {cs : List Char} (h : ',' ∉ cs) : splitCommas cs = [cs] := by
  induction cs with
  | nil => rfl
  | cons c cs ih =>
    obtain ⟨hne, hmem⟩ := not_or.mp (mt List.mem_cons.mpr h)
    simp [splitCommas, ih hmem, Ne.symm hne]

/-! ## A line of `CRC.BYTE` -/

section
variable {literal : List Char} (hne : literal ≠ []) (hplain : ∀ c ∈ literal, isPlain c = true)
include hplain

theorem not_blank_of_plain {c : Char} (hc : c ∈ literal) : isBlank c = false := (isPlain_iff.mp (hplain c hc)).1

theorem comma_not_mem_of_plain : ',' ∉ literal := fun hc => (isPlain_iff.mp (hplain _ hc)).2.1 rfl

theorem semicolon_not_mem_of_plain : ';' ∉ literal := fun hc => (isPlain_iff.mp (hplain _ hc)).2.2 rfl

theorem trimBlanks_of_plain : trimBlanks literal = literal :=
  trimBlanks_of_ends (fun _ hc => not_blank_of_plain hplain (List.mem_of_mem_head? hc))
    fun _ hc => not_blank_of_plain hplain (List.mem_of_mem_getLast? hc)

theorem semicolon_not_mem_byte_line : ';' ∉ "CRC.BYTE ".toList ++ literal :=
  List.not_mem_append (by decide) (semicolon_not_mem_of_plain hplain)

include hne

theorem trimBlanks_byte_line : trimBlanks ("CRC.BYTE ".toList ++ literal) = "CRC.BYTE ".toList ++ literal := by
  refine trimBlanks_of_ends (fun c hc => ?head) fun c hc => ?last
  case head =>
    obtain rfl : 'C' = c := Option.some.inj hc
    rfl
  case last =>
    rw [List.getLast?_append_of_ne_nil _ hne] at hc
    exact not_blank_of_plain hplain (List.mem_of_mem_getLast? hc)

variable {n : Nat} (hvalue : literalValue literal = some n)
include hvalue

theorem operandList_space_literal : operandList (' ' :: literal) = some [n] := by
  have hcomma : ',' ∉ ' ' :: literal := List.not_mem_cons_of_ne_of_not_mem (by decide) (comma_not_mem_of_plain hplain)
  simp [operandList, trimBlanks_of_plain hplain, hne, splitCommas_of_not_mem hcomma, literalList, hvalue]

theorem parseLine_byte : parseLine ("CRC.BYTE ".toList ++ literal) = .ok (some (.byte n)) := by
  have hmnemonic : ("CRC.BYTE ".toList ++ literal).takeWhile (fun c => !isBlank c) = "CRC.BYTE".toList := rfl
  have hoperands : ("CRC.BYTE ".toList ++ literal).dropWhile (fun c => !isBlank c) = ' ' :: literal := rfl
  have hsource : sourceOf "CRC.BYTE".toList [n] = .ok (.byte n) := rfl
  rw [parseLine, stripComment_of_not_mem (semicolon_not_mem_byte_line hplain), trimBlanks_byte_line hne hplain,
    hmnemonic, hoperands, operandList_space_literal hne hplain hvalue]
  exact (if_neg (List.append_ne_nil_of_right_ne_nil _ hne)).trans (congrArg (Except.map some) hsource)

end

theorem assembleLine_byte {literal : List Char} {d : Byte} (hne : literal ≠ [])
    (hplain : ∀ c ∈ literal, isPlain c = true) (hvalue : literalValue literal = some d.toNat) :
    assembleLine ("CRC.BYTE ".toList ++ literal) = .ok [encode (.byte d)] := by
  rw [assembleLine, parseLine_byte hne hplain hvalue]
  simp [expandSource]

/-! ## Hexadecimal literals -/

theorem hexDigit_hexChar {n : Nat} (h : n < 16) : hexDigit (hexChar n) = some n := by
  revert n; decide

theorem isPlain_hexChar {n : Nat} (h : n < 16) : isPlain (hexChar n) = true := by
  revert n; decide

theorem hexDigits_lt (d : Byte) : d.toNat / 16 < 16 ∧ d.toNat % 16 < 16 := by omega

theorem literalValue_byteLiteral (d : Byte) : literalValue (byteLiteral d) = some d.toNat := by
  obtain ⟨hhigh, hlow⟩ := hexDigits_lt d
  simp [byteLiteral, literalValue, hexDigit_hexChar hhigh, hexDigit_hexChar hlow, Nat.div_add_mod']

theorem isPlain_of_mem_byteLiteral (d : Byte) : ∀ c ∈ byteLiteral d, isPlain c = true := by
  obtain ⟨hhigh, hlow⟩ := hexDigits_lt d
  simp only [byteLiteral, List.forall_mem_cons]
  exact ⟨by decide, by decide, isPlain_hexChar hhigh, isPlain_hexChar hlow, List.forall_mem_nil _⟩

theorem semicolon_not_mem_renderInstr (i : Instr) : ';' ∉ renderInstr i := by
  cases i with
  | hold => decide
  | byte d => exact semicolon_not_mem_byte_line (isPlain_of_mem_byteLiteral d)
  | init => decide

theorem assembleLine_renderInstr (i : Instr) : assembleLine (renderInstr i) = .ok [encode i] := by
  cases i with
  | hold => rfl
  | byte d => exact assembleLine_byte (List.cons_ne_nil _ _) (isPlain_of_mem_byteLiteral d) (literalValue_byteLiteral d)
  | init => rfl

/-! ## Decimal literals -/

theorem decDigit_of_isDigit {c : Char} (h : c.isDigit = true) : decDigit c = some (c.toNat - '0'.toNat) := by
  rw [Char.isDigit, Bool.and_eq_true, decide_eq_true_eq, decide_eq_true_eq] at h
  exact if_pos h

theorem isPlain_of_isDigit {c : Char} (h : c.isDigit = true) : isPlain c = true := by
  have hne {x : Char} (hx : x.isDigit = false) : c ≠ x := fun heq => by simp [heq, hx] at h
  simp [isPlain, isBlank, hne (x := ' ') rfl, hne (x := '\t') rfl, hne (x := ',') rfl, hne (x := ';') rfl]

/-- The model reads decimal digits as the library does. -/
theorem decDigits_eq_ofDigitChars (acc : Nat) {cs : List Char} (h : ∀ c ∈ cs, c.isDigit = true) :
    decDigits acc cs = some (Nat.ofDigitChars 10 cs acc) := by
  induction cs generalizing acc with
  | nil => rfl
  | cons c cs ih =>
    obtain ⟨hc, hcs⟩ := List.forall_mem_cons.mp h
    rw [Nat.ofDigitChars_cons, Nat.mul_comm, ← ih _ hcs]
    simp [decDigits, decDigit_of_isDigit hc]

/-- Digits alone are no hexadecimal literal, whose second character is an `x`. -/
theorem literalValue_of_digits {cs : List Char} (hne : cs ≠ []) (h : ∀ c ∈ cs, c.isDigit = true) :
    literalValue cs = decDigits 0 cs := by
  unfold literalValue
  split
  · contradiction
  · exact absurd (h 'x' (by simp)) (by decide)
  · rfl

theorem assembleLine_decimal (d : Byte) :
    assembleLine ("CRC.BYTE ".toList ++ Nat.toDigits 10 d.toNat) = .ok [encode (.byte d)] := by
  have hdigits : ∀ c ∈ Nat.toDigits 10 d.toNat, c.isDigit = true :=
    fun _ => Nat.isDigit_of_mem_toDigits (by decide) (by decide)
  refine assembleLine_byte Nat.toDigits_ne_nil (fun c hc => isPlain_of_isDigit (hdigits c hc)) ?_
  rw [literalValue_of_digits Nat.toDigits_ne_nil hdigits, decDigits_eq_ofDigitChars 0 hdigits,
    Nat.ofDigitChars_ten_toDigits]

/-- Settles O21: a line is cut at its comment and its first blank, and both kinds of literal give the operand back. -/
theorem assemblerGivesCanonicalWords : Obligations.AssemblerGivesCanonicalWords := by
  unfold Obligations.AssemblerGivesCanonicalWords
  refine ⟨assembleLine_renderInstr, fun i comment => ?commented, fun comment => ?commentAlone, assembleLine_decimal⟩
  case commented => rw [assembleLine_append_comment (semicolon_not_mem_renderInstr i), assembleLine_renderInstr]
  case commentAlone => exact assembleLine_append_comment (line := []) List.not_mem_nil comment

end Sys2Proof.Machine
end
